-- ==== Sys2Proof/Word.lean ====
section
/-! DEFINITION. The word types of the block (spec R7, R8). Every value is unsigned (R9). -/

namespace Sys2Proof

/-- An 8-bit value: a general register, a timer, a byte of memory (R7). -/
abbrev Byte := BitVec 8

/-- A 16-bit value: an instruction word, `pc`, `I`, a stack entry (R7, R47). -/
abbrev Word := BitVec 16

/-- The 12-bit field `nnn` of a word (R48): an absolute address before it is widened. -/
abbrev Addr := BitVec 12

/-- The number of a general register: `Vi` is register `i`, 0 to 15 (R13, R16). -/
abbrev Reg := Fin 16

/-- Register 15, `VF`, the only flag of the block (R15). -/
abbrev vf : Reg := 15

end Sys2Proof
end

