-- ==== Sys2Proof/Machine/Flags.lean ====
section
/-! DEFINITION. The flag computations of the block (spec R15): each gives exactly 0 or 1. -/

namespace Sys2Proof.Machine

/-- 1 where the condition holds, else 0 (R15). -/
def flagOf (b : Bool) : Byte := if b then 1 else 0

/-- Carry of an addition: 1 iff the exact sum exceeds 255 (R78). -/
def carryFlag (a b : Byte) : Byte := flagOf (decide (a.toNat + b.toNat > 255))

/-- Not-borrow of `a - b`: 1 iff `a >= b` (R79, R81). -/
def notBorrowFlag (a b : Byte) : Byte := flagOf (decide (a.toNat ≥ b.toNat))

/-- The bit a right shift by one shifts out: bit 0 before the shift (R80). -/
def shiftOutFlag (a : Byte) : Byte := a &&& 0x1

end Sys2Proof.Machine
end

