-- ==== Sys2Proof/Syntax.lean ====
section
/-! DEFINITION. The instructions of the block: one constructor for each of the seventeen rules of spec R52. -/

namespace Sys2Proof

/-- The seventeen rules of R52, in its priority order, with the operand fields their handlers have (R48). -/
inductive Instr where
  /-- `RET`, `0x00EE` (R64). -/
  | ret
  /-- `SYS addr`, `0x0nnn`; the handler ignores `nnn` (R63). -/
  | sys (nnn : Addr)
  /-- `JP addr`, `0x1nnn` (R65). -/
  | jp (nnn : Addr)
  /-- `CALL addr`, `0x2nnn` (R66). -/
  | call (nnn : Addr)
  /-- `SE Vx, byte`, `0x3xkk` (R67). -/
  | seByte (x : Reg) (kk : Byte)
  /-- `SNE Vx, byte`, `0x4xkk` (R68). -/
  | sneByte (x : Reg) (kk : Byte)
  /-- `SE Vx, Vy`, `0x5xy0` (R69). -/
  | seReg (x y : Reg)
  /-- `LD Vx, byte`, `0x6xkk` (R71). -/
  | ldByte (x : Reg) (kk : Byte)
  /-- `ADD Vx, byte`, `0x7xkk` (R72). -/
  | addByte (x : Reg) (kk : Byte)
  /-- `LD Vx, Vy`, `0x8xy0` (R74). -/
  | ldReg (x y : Reg)
  /-- `OR Vx, Vy`, `0x8xy1` (R75). -/
  | orReg (x y : Reg)
  /-- `AND Vx, Vy`, `0x8xy2` (R76). -/
  | andReg (x y : Reg)
  /-- `XOR Vx, Vy`, `0x8xy3` (R77). -/
  | xorReg (x y : Reg)
  /-- `ADD Vx, Vy`, `0x8xy4` (R78). -/
  | addReg (x y : Reg)
  /-- `SUB Vx, Vy`, `0x8xy5` (R79). -/
  | subReg (x y : Reg)
  /-- `SHR Vx`, `0x8xy6` with any `y`: the field `y` is no operand of it (R60, R80). -/
  | shr (x : Reg)
  /-- `SUBN Vx, Vy`, `0x8xy7` (R81). -/
  | subnReg (x y : Reg)
  deriving DecidableEq, Repr

/-- The four instruction formats (R49). -/
inductive Format where
  | fixed
  | nnn
  | xkk
  | xy
  deriving DecidableEq, Repr

end Sys2Proof
end

