-- ==== Sys2Proof/WellFormed.lean ====
section
/-! DEFINITION. Which instructions some word stands for. The types of the operand fields rule out every other
ill-formed operand (R16). -/

namespace Sys2Proof

/-- `SYS 0x0EE` has no word: `0x00EE` decodes as `RET` (R54, R61, R62). Every other instruction has one. -/
def Instr.wf : Instr → Bool
  | .ret => true
  | .sys nnn => nnn != 0x0EE
  | .jp _ => true
  | .call _ => true
  | .seByte _ _ => true
  | .sneByte _ _ => true
  | .seReg _ _ => true
  | .ldByte _ _ => true
  | .addByte _ _ => true
  | .ldReg _ _ => true
  | .orReg _ _ => true
  | .andReg _ _ => true
  | .xorReg _ _ => true
  | .addReg _ _ => true
  | .subReg _ _ => true
  | .shr _ => true
  | .subnReg _ _ => true

end Sys2Proof
end

