-- ==== Sys2Proof/Decode.lean ====
section
/-! DEFINITION. Decoding a word by the ordered mask and pattern table (spec R47 to R60), and encoding (R49, R61). -/

namespace Sys2Proof

/-- Field `op`, nibble 0 (R48). -/
def fieldOp (w : Word) : BitVec 4 := w.extractLsb' 12 4

/-- A 4-bit register field names a register directly (R16, R51). -/
def regOfBits (b : BitVec 4) : Reg := ⟨b.toNat, b.isLt⟩

/-- Field `x`, nibble 1: the first register operand (R48). -/
def fieldX (w : Word) : Reg := regOfBits (w.extractLsb' 8 4)

/-- Field `y`, nibble 2: the second register operand (R48). -/
def fieldY (w : Word) : Reg := regOfBits (w.extractLsb' 4 4)

/-- Field `kk`, the low byte (R48). -/
def fieldKK (w : Word) : Byte := w.extractLsb' 0 8

/-- Field `nnn`, the low twelve bits (R48). -/
def fieldNNN (w : Word) : Addr := w.extractLsb' 0 12

/-- Field `sub`, nibble 3 (R48). -/
def fieldSub (w : Word) : BitVec 4 := w.extractLsb' 0 4

/-- One rule: the significant bits, the value they must have, the format, and how the handler's operands are taken
from the word (R49, R52, R56). -/
structure Rule where
  mask : Word
  pattern : Word
  format : Format
  build : Word → Instr

/-- A rule matches `w` when `(w & mask) == pattern` (R53). -/
def ruleMatches (r : Rule) (w : Word) : Bool := w &&& r.mask == r.pattern

/-- `RET`, `SYS`, jump, call and the skips: priorities 1 to 7 of R52. -/
def controlRules : List Rule :=
  [ ⟨0xFFFF, 0x00EE, .fixed, fun _ => .ret⟩,
    ⟨0xF000, 0x0000, .nnn, fun w => .sys (fieldNNN w)⟩,
    ⟨0xF000, 0x1000, .nnn, fun w => .jp (fieldNNN w)⟩,
    ⟨0xF000, 0x2000, .nnn, fun w => .call (fieldNNN w)⟩,
    ⟨0xF000, 0x3000, .xkk, fun w => .seByte (fieldX w) (fieldKK w)⟩,
    ⟨0xF000, 0x4000, .xkk, fun w => .sneByte (fieldX w) (fieldKK w)⟩,
    ⟨0xF00F, 0x5000, .xy, fun w => .seReg (fieldX w) (fieldY w)⟩ ]

/-- Register-immediate operations: priorities 8 and 9 of R52. -/
def immediateRules : List Rule :=
  [ ⟨0xF000, 0x6000, .xkk, fun w => .ldByte (fieldX w) (fieldKK w)⟩,
    ⟨0xF000, 0x7000, .xkk, fun w => .addByte (fieldX w) (fieldKK w)⟩ ]

/-- Register-register operations: priorities 10 to 17 of R52. `SHR` does not read `y` (R60). -/
def aluRules : List Rule :=
  [ ⟨0xF00F, 0x8000, .xy, fun w => .ldReg (fieldX w) (fieldY w)⟩,
    ⟨0xF00F, 0x8001, .xy, fun w => .orReg (fieldX w) (fieldY w)⟩,
    ⟨0xF00F, 0x8002, .xy, fun w => .andReg (fieldX w) (fieldY w)⟩,
    ⟨0xF00F, 0x8003, .xy, fun w => .xorReg (fieldX w) (fieldY w)⟩,
    ⟨0xF00F, 0x8004, .xy, fun w => .addReg (fieldX w) (fieldY w)⟩,
    ⟨0xF00F, 0x8005, .xy, fun w => .subReg (fieldX w) (fieldY w)⟩,
    ⟨0xF00F, 0x8006, .xy, fun w => .shr (fieldX w)⟩,
    ⟨0xF00F, 0x8007, .xy, fun w => .subnReg (fieldX w) (fieldY w)⟩ ]

/-- The rule table of R52, in priority order (`RET` before `SYS`: R54, C3). -/
def ruleTable : List Rule := controlRules ++ immediateRules ++ aluRules

/-- What decoding a word gives: a rule's instruction, or the rejection by name (R55). -/
inductive Decoded where
  | instr (i : Instr)
  /-- No rule matches `w`; the step takes the unknown-opcode path (R57). Safe: the path is the spec's. -/
  | unknownOpcode (w : Word)
  deriving DecidableEq, Repr

/-- Decode selects the first matching rule in priority order (R54). -/
def decodeWord (w : Word) : Decoded :=
  match ruleTable.find? (fun r => ruleMatches r w) with
  | some r => .instr (r.build w)
  | none => .unknownOpcode w

/-- A word from its two bytes, the byte at the lower address first (big-endian, R37). -/
def wordOfBytes (hi lo : Byte) : Word := hi ++ lo

/-- Bits 15 to 8 of a word: the byte at the lower address (R37). -/
def highByte (w : Word) : Byte := w.extractLsb' 8 8

/-- Bits 7 to 0 of a word: the byte at the higher address (R37). -/
def lowByte (w : Word) : Byte := w.extractLsb' 0 8

/-- Decode the first instruction of a byte sequence; every instruction is one 16-bit word (R47). `none` where fewer
than two bytes are left. -/
def decodeBytes : List Byte → Option (Decoded × List Byte)
  | hi :: lo :: rest => some (decodeWord (wordOfBytes hi lo), rest)
  | [_] => none
  | [] => none

/-- The bytes of a word as memory holds them (R37). -/
def bytesOfWord (w : Word) : List Byte := [highByte w, lowByte w]

/-- The 16-bit word whose low `nbits` bits are those of `w`, every bit above them 0. -/
def tableWord (nbits w : Nat) : Word := BitVec.ofNat 16 (w % 2 ^ nbits)

/-- The host's question: the instruction the decoder reads from a word numbered as spec/opcode_table.json numbers it. -/
def decodeTableWord (nbits w : Nat) : Option Instr :=
  match decodeBytes (bytesOfWord (tableWord nbits w)) with
  | some (.instr i, _) => some i
  | some (.unknownOpcode _, _) => none
  | none => none

/-- The 4-bit field that names a register (R51). -/
def bitsOfReg (r : Reg) : BitVec 4 := BitVec.ofNat 4 r.val

/-- Format NNN: `oooo nnnn nnnn nnnn` (R49). -/
def encodeNNN (op : BitVec 4) (nnn : Addr) : Word := op ++ nnn

/-- Format XKK: `oooo xxxx kkkk kkkk` (R49). -/
def encodeXKK (op : BitVec 4) (x : Reg) (kk : Byte) : Word := op ++ bitsOfReg x ++ kk

/-- Format XY: `oooo xxxx yyyy ssss` (R49). -/
def encodeXY (op : BitVec 4) (x y : Reg) (sub : BitVec 4) : Word := op ++ bitsOfReg x ++ bitsOfReg y ++ sub

/-- The word the assembler writes for an instruction (R61); for `SHR` it writes `y = 0` (R62). -/
def encode : Instr → Word
  | .ret => 0x00EE
  | .sys nnn => encodeNNN 0x0 nnn
  | .jp nnn => encodeNNN 0x1 nnn
  | .call nnn => encodeNNN 0x2 nnn
  | .seByte x kk => encodeXKK 0x3 x kk
  | .sneByte x kk => encodeXKK 0x4 x kk
  | .seReg x y => encodeXY 0x5 x y 0x0
  | .ldByte x kk => encodeXKK 0x6 x kk
  | .addByte x kk => encodeXKK 0x7 x kk
  | .ldReg x y => encodeXY 0x8 x y 0x0
  | .orReg x y => encodeXY 0x8 x y 0x1
  | .andReg x y => encodeXY 0x8 x y 0x2
  | .xorReg x y => encodeXY 0x8 x y 0x3
  | .addReg x y => encodeXY 0x8 x y 0x4
  | .subReg x y => encodeXY 0x8 x y 0x5
  | .shr x => encodeXY 0x8 x 0 0x6
  | .subnReg x y => encodeXY 0x8 x y 0x7

/-- The mask of an instruction's rule in R52. -/
def ruleMask : Instr → Word
  | .ret => 0xFFFF
  | .sys _ => 0xF000
  | .jp _ => 0xF000
  | .call _ => 0xF000
  | .seByte _ _ => 0xF000
  | .sneByte _ _ => 0xF000
  | .seReg _ _ => 0xF00F
  | .ldByte _ _ => 0xF000
  | .addByte _ _ => 0xF000
  | .ldReg _ _ => 0xF00F
  | .orReg _ _ => 0xF00F
  | .andReg _ _ => 0xF00F
  | .xorReg _ _ => 0xF00F
  | .addReg _ _ => 0xF00F
  | .subReg _ _ => 0xF00F
  | .shr _ => 0xF00F
  | .subnReg _ _ => 0xF00F

/-- The pattern of an instruction's rule in R52. -/
def rulePattern : Instr → Word
  | .ret => 0x00EE
  | .sys _ => 0x0000
  | .jp _ => 0x1000
  | .call _ => 0x2000
  | .seByte _ _ => 0x3000
  | .sneByte _ _ => 0x4000
  | .seReg _ _ => 0x5000
  | .ldByte _ _ => 0x6000
  | .addByte _ _ => 0x7000
  | .ldReg _ _ => 0x8000
  | .orReg _ _ => 0x8001
  | .andReg _ _ => 0x8002
  | .xorReg _ _ => 0x8003
  | .addReg _ _ => 0x8004
  | .subReg _ _ => 0x8005
  | .shr _ => 0x8006
  | .subnReg _ _ => 0x8007

end Sys2Proof
end

