-- ==== Sys2Proof/Config.lean ====
section
/-! DEFINITION. The construction-time parameters of the block (spec R4, R5, R6). The spec leaves no value
undefined (93_implementation_defined.md), so there is no free value here. -/

namespace Sys2Proof

/-- What `RET` does on an empty stack (R6, R64). -/
inductive RetEmptyPolicy where
  /-- Nothing changes; `pc` stays at the `RET`. The choice of the spec's hardware (R6). -/
  | hold
  /-- An `EmptyStackReturn` event is emitted and `pc` advances by 2. -/
  | report
  deriving DecidableEq, Repr

/-- The parameters, fixed at construction (R27, R33). -/
structure Config where
  /-- `MEMORY_SIZE`, the byte length of `memory` (R4). -/
  memorySize : Nat
  /-- `LOAD_OFFSET`, where an image is placed and where `pc` starts (R5). -/
  loadOffset : Nat
  /-- `RET_EMPTY_POLICY` (R6). -/
  retEmptyPolicy : RetEmptyPolicy
  deriving DecidableEq, Repr

/-- The legal range of the parameters (R4, R5). -/
abbrev Config.Legal (c : Config) : Prop :=
  c.loadOffset ≤ c.memorySize ∧ c.memorySize ≤ 65536 ∧ c.loadOffset ≤ 0xFFFF

/-- DESIGN CHOICE (log entry 1): the parameters of the machine that `State.reset` describes. They are the values
every example of the spec uses: 4096 (R4), 0x200 (R5), `HOLD` (R6). -/
def Config.standard : Config :=
  { memorySize := 4096, loadOffset := 0x200, retEmptyPolicy := .hold }

end Sys2Proof
end

