-- ==== Sys2Proof/Machine/State.lean ====
section
/-! DEFINITION. The state of the block (spec R13 to R33), the reasons a step can stop, and the state after reset (R31). -/

namespace Sys2Proof.Machine

/-- Memory: the bytes that differ from what an unlisted address reads as (0, R29 and R31), by rising address. -/
abbrev Memory := List Host.Cell

/-- The two kinds of diagnostic event (R88). -/
inductive EventKind where
  /-- A word no rule matches was skipped (R57, R87). -/
  | unknownOpcode
  /-- `RET` on an empty stack under `REPORT` (R64). -/
  | emptyStackReturn
  deriving DecidableEq, Repr

/-- A diagnostic event: the fetched word and the `pc` it was fetched from (R88). -/
structure Event where
  kind : EventKind
  opcode : Word
  address : Word
  deriving DecidableEq, Repr

/-- The complete state (R33), with the configuration (R27) and one field of the model's own, `events`. -/
structure State where
  /-- The general registers `V0` to `VF` (R13). -/
  V : Vector Byte 16
  /-- The return-address stack, a file of its own outside memory (R21). -/
  stack : Vector Word 16
  /-- The number of occupied stack slots, 0 to 16 (R22). -/
  sp : Fin 17
  /-- The address of the next instruction to fetch (R17). -/
  pc : Word
  /-- The index register; no instruction in scope reads or writes it (R24). -/
  I : Word
  /-- The delay timer; only the host changes it (R25). -/
  DT : Byte
  /-- The sound timer; only the host changes it (R25). -/
  ST : Byte
  /-- The `MEMORY_SIZE` bytes of memory (R26). -/
  memory : Memory
  /-- The construction-time parameters, which nothing changes (R27). -/
  config : Config
  /-- DESIGN CHOICE (log entry 2): the MODEL's own field. The events emitted since construction or the last reset,
  in step order. Events are outputs of a step, not state (R33, R88); `Host.Outcome` has no place for an output, so
  they are kept here. No step reads the field. -/
  events : List Event
  deriving DecidableEq, Repr

/-- The reasons a step stops. The state after either is the state before the step (R84, R91). -/
inductive Fault where
  /-- Raised by the fetch of `step` when `pc + 1 >= MEMORY_SIZE` (R36, R86). Safe: the spec gives no byte there. -/
  | pcOutOfRange
  /-- Raised by `CALL` when `sp = 16`: the spec's `Err(StackOverflow)` (R66, R85). Safe: the step has no effect. -/
  | stackOverflow
  deriving DecidableEq, Repr

/-- Why a step has no meaning. -/
inductive Refusal where
  /-- Answered by an arm of `exec` for an instruction not modelled yet; no arm is one now. Safe: nothing follows. -/
  | notModelled (mnemonic : String)
  deriving DecidableEq, Repr

/-- The reset state for given parameters (R31): what construction (R98) and `reset` (R99) leave. -/
def State.ofConfig (c : Config) : State :=
  { V := Vector.replicate 16 0
    stack := Vector.replicate 16 0
    sp := 0
    pc := BitVec.ofNat 16 c.loadOffset
    I := 0
    DT := 0
    ST := 0
    memory := []
    config := c
    events := [] }

/-- The machine right after reset, with the parameters of `Config.standard` (log entry 1). -/
def State.reset : State := State.ofConfig Config.standard

end Sys2Proof.Machine
end

