-- ==== Sys2Proof/Machine/Ops.lean ====
section
/-! DEFINITION. The named operations over memory, registers, the stack, `pc` and the event output. The block has no
trap entry and no return from one (spec R91, R92): a step that fails answers a fault and the state stays, so there is
no exception operation here. -/

namespace Sys2Proof.Machine

/-- What a byte of memory that nothing has written reads as: 0 (R29, R31). -/
abbrev Memory.unlisted : Byte := 0#8

/-- The byte at an address of the list. -/
def Memory.readByte : Memory → Nat → Byte
  | [], _ => Memory.unlisted
  | (k, c) :: rest, a => if k = a then c else Memory.readByte rest a

/-- The list with one byte written, in canonical form: an entry that would read as an unlisted address is left out. -/
def Memory.writeByte : Memory → Nat → Byte → Memory
  | [], a, b => if b = Memory.unlisted then [] else [(a, b)]
  | (k, c) :: rest, a, b =>
    if a < k then (if b = Memory.unlisted then (k, c) :: rest else (a, b) :: (k, c) :: rest)
    else if a = k then (if b = Memory.unlisted then rest else (k, b) :: rest)
    else (k, c) :: Memory.writeByte rest a b

/-- Bytes written one after another from an address on (the copy of R100). -/
def Memory.writeBytes : Memory → Nat → List Byte → Memory
  | m, _, [] => m
  | m, a, b :: bs => Memory.writeBytes (Memory.writeByte m a b) (a + 1) bs

/-- The canonical form: addresses strictly rising, no entry equal to what an unlisted address reads as. -/
def Memory.wf : Memory → Bool
  | [] => true
  | (k, c) :: rest => (c != Memory.unlisted) && rest.all (fun d => decide (k < d.1)) && Memory.wf rest

/-- Every listed address lies below `n` (R26). -/
def Memory.below (n : Nat) (m : Memory) : Bool := m.all (fun c => decide (c.1 < n))

/-- `MemWrite(addr, 1, v)` (R10): defined only for `addr < MEMORY_SIZE`. No instruction uses it (R39). -/
def State.memWrite (s : State) (a : Nat) (b : Byte) : Option State :=
  if a < s.config.memorySize then some { s with memory := Memory.writeByte s.memory a b } else none

/-- The fetch range check: both byte addresses lie in memory, the sum not wrapped (R36). -/
def State.fetchInRange (s : State) : Bool := decide (s.pc.toNat + 1 < s.config.memorySize)

/-- The instruction word at `pc`: the two reads `MemRead(pc, 1)` and `MemRead(pc + 1, 1)` of R10, defined only below
`MEMORY_SIZE`, most significant byte first (R35, R37), at an even or odd `pc` alike (R38). `none` where the fetch is out
of range (R36). Reading has no side effect (R40). -/
def State.fetch (s : State) : Option Word :=
  if s.fetchInRange then
    some (wordOfBytes (Memory.readByte s.memory s.pc.toNat) (Memory.readByte s.memory (s.pc.toNat + 1)))
  else none

/-- `V[x]` (R10). No register is hardwired (R14). -/
def State.readV (s : State) (x : Reg) : Byte := s.V[x.val]

/-- `V[x] <- b` (R10). -/
def State.writeV (s : State) (x : Reg) (b : Byte) : State := { s with V := s.V.set x.val b }

/-- `pc <- target` (R10). -/
def State.setPc (s : State) (target : Word) : State := { s with pc := target }

/-- `(pc + n) mod 2^16` (R19). -/
def State.pcPlus (s : State) (n : Nat) : Word := BitVec.ofNat 16 (s.pc.toNat + n)

/-- `pc <- (pc + n) mod 2^16` (R18, R19). -/
def State.advance (s : State) (n : Nat) : State := s.setPc (s.pcPlus n)

/-- `emit Event(kind, w, pc)` (R10, R88). -/
def State.emit (s : State) (kind : EventKind) (w : Word) : State :=
  { s with events := s.events ++ [{ kind := kind, opcode := w, address := s.pc }] }

/-- The unknown-opcode path: one event, `pc` advanced by 2, nothing else (R57, R87). -/
def State.skipUnknown (s : State) (w : Word) : State := (s.emit .unknownOpcode w).advance 2

/-- Push a return address: `stack[sp] <- a`, then `sp <- sp + 1` (R22, R66). `none` where the stack is full. -/
def State.push (s : State) (a : Word) : Option State :=
  if h : s.sp.val < 16 then
    some { s with stack := s.stack.set s.sp.val a h, sp := ⟨s.sp.val + 1, Nat.succ_lt_succ h⟩ }
  else none

/-- Pop a return address: `sp <- sp - 1`, then read `stack[sp]`, which keeps its value (R22, R23, R64). `none` where
the stack is empty. -/
def State.pop (s : State) : Option (Word × State) :=
  match s.sp with
  | ⟨0, _⟩ => none
  | ⟨n + 1, h⟩ => some (s.stack[n]'(Nat.lt_of_succ_lt_succ h), { s with sp := ⟨n, Nat.lt_of_succ_lt h⟩ })

end Sys2Proof.Machine
end

