-- ==== Sys2Proof/Machine/Operands.lean ====
section
/-! DEFINITION. The operand forms (spec R50, R51) and the two shapes of an instruction's end: a skip (R70) and the
compute-then-commit of R73. -/

namespace Sys2Proof.Machine

/-- A jump or call target: `zext_16(nnn)`, so always in `0x000 .. 0xFFF` (R50). -/
def targetOf (nnn : Addr) : Word := nnn.setWidth 16

/-- A skip: `pc + 4` where the condition holds, else `pc + 2` (R67, R68, R69, R70). -/
def State.skipIf (s : State) (cond : Bool) : State := if cond then s.advance 4 else s.advance 2

/-- The commit of a rule with no flag: `V[x] <- res`, then `pc + 2` (R71, R72, R73). -/
def State.commit (s : State) (x : Reg) (res : Byte) : State := (s.writeV x res).advance 2

/-- The commit of a rule with a flag: `V[x] <- res`, then `V[15] <- flag`, last, then `pc + 2` (R73). -/
def State.commitFlag (s : State) (x : Reg) (res flag : Byte) : State := ((s.writeV x res).writeV vf flag).advance 2

end Sys2Proof.Machine
end

