-- ==== Sys2Proof/Machine/Alu.lean ====
section
/-! DEFINITION. Register-register operations (spec R73 to R82). Every operand is read from the state before the step,
and `VF` is written last (R73, C2). -/

namespace Sys2Proof.Machine

/-- `LD Vx, Vy`: register move (R74). -/
def execLdReg (x y : Reg) (s : State) : Host.Outcome State Fault Refusal :=
  .next (s.commit x (s.readV y))

/-- `OR Vx, Vy` (R75). -/
def execOrReg (x y : Reg) (s : State) : Host.Outcome State Fault Refusal :=
  .next (s.commit x (s.readV x ||| s.readV y))

/-- `AND Vx, Vy` (R76). -/
def execAndReg (x y : Reg) (s : State) : Host.Outcome State Fault Refusal :=
  .next (s.commit x (s.readV x &&& s.readV y))

/-- `XOR Vx, Vy` (R77). -/
def execXorReg (x y : Reg) (s : State) : Host.Outcome State Fault Refusal :=
  .next (s.commit x (s.readV x ^^^ s.readV y))

/-- `ADD Vx, Vy`: add with carry out to `VF` (R78). -/
def execAddReg (x y : Reg) (s : State) : Host.Outcome State Fault Refusal :=
  .next (s.commitFlag x (s.readV x + s.readV y) (carryFlag (s.readV x) (s.readV y)))

/-- `SUB Vx, Vy`: `Vx - Vy` with not-borrow to `VF` (R79). -/
def execSubReg (x y : Reg) (s : State) : Host.Outcome State Fault Refusal :=
  .next (s.commitFlag x (s.readV x - s.readV y) (notBorrowFlag (s.readV x) (s.readV y)))

/-- `SHR Vx`: logical shift right by one, the bit shifted out to `VF` (R80). -/
def execShr (x : Reg) (s : State) : Host.Outcome State Fault Refusal :=
  .next (s.commitFlag x (s.readV x >>> 1) (shiftOutFlag (s.readV x)))

/-- `SUBN Vx, Vy`: `Vy - Vx` into `Vx`, with not-borrow to `VF` (R81). -/
def execSubnReg (x y : Reg) (s : State) : Host.Outcome State Fault Refusal :=
  .next (s.commitFlag x (s.readV y - s.readV x) (notBorrowFlag (s.readV y) (s.readV x)))

end Sys2Proof.Machine
end

