-- ==== Sys2Proof/Machine/Control.lean ====
section
/-! DEFINITION. Control transfer and skips (spec R63 to R70). -/

namespace Sys2Proof.Machine

/-- `SYS addr`: no operation; `nnn` has no effect (R63). -/
def execSys (_nnn : Addr) (s : State) : Host.Outcome State Fault Refusal := .next (s.advance 2)

/-- `RET` on an empty stack, by `RET_EMPTY_POLICY` (R64, C6): `HOLD` changes nothing; `REPORT` emits an event with the
word `0x00EE` and advances. -/
def retOnEmpty (s : State) : State :=
  match s.config.retEmptyPolicy with
  | .hold => s
  | .report => (s.emit .emptyStackReturn 0x00EE).advance 2

/-- `RET`: pop the return address into `pc`, with no further increment (R64, C1). -/
def execRet (s : State) : Host.Outcome State Fault Refusal :=
  match s.pop with
  | none => .next (retOnEmpty s)
  | some (a, s') => .next (s'.setPc a)

/-- `JP addr`: absolute jump (R65). -/
def execJp (nnn : Addr) (s : State) : Host.Outcome State Fault Refusal := .next (s.setPc (targetOf nnn))

/-- `CALL addr`: push `pc + 2` and jump; on a full stack `Err(StackOverflow)` with nothing written (R66, R85). -/
def execCall (nnn : Addr) (s : State) : Host.Outcome State Fault Refusal :=
  match s.push (s.pcPlus 2) with
  | none => .fault .stackOverflow
  | some s' => .next (s'.setPc (targetOf nnn))

/-- `SE Vx, byte`: skip if `V[x] == kk` (R67). -/
def execSeByte (x : Reg) (kk : Byte) (s : State) : Host.Outcome State Fault Refusal :=
  .next (s.skipIf (s.readV x == kk))

/-- `SNE Vx, byte`: skip if `V[x] != kk` (R68). -/
def execSneByte (x : Reg) (kk : Byte) (s : State) : Host.Outcome State Fault Refusal :=
  .next (s.skipIf (s.readV x != kk))

/-- `SE Vx, Vy`: skip if `V[x] == V[y]` (R69). -/
def execSeReg (x y : Reg) (s : State) : Host.Outcome State Fault Refusal :=
  .next (s.skipIf (s.readV x == s.readV y))

end Sys2Proof.Machine
end

