-- ==== Sys2Proof/Machine/Immediate.lean ====
section
/-! DEFINITION. Register-immediate operations (spec R71, R72). -/

namespace Sys2Proof.Machine

/-- `LD Vx, byte`: load immediate (R71). -/
def execLdByte (x : Reg) (kk : Byte) (s : State) : Host.Outcome State Fault Refusal :=
  .next (s.commit x kk)

/-- `ADD Vx, byte`: add immediate with wraparound, no flag (R72). -/
def execAddByte (x : Reg) (kk : Byte) (s : State) : Host.Outcome State Fault Refusal :=
  .next (s.commit x (s.readV x + kk))

end Sys2Proof.Machine
end

