-- ==== Sys2Proof/Machine/Step.lean ====
section
/-! DEFINITION. One step: fetch, decode, effect (spec R83), and the host's way to place one instruction where the next
step fetches it. -/

namespace Sys2Proof.Machine

/-- One fetch-decode-execute transaction, its tests in the order of R90: fetch range, decode, handler (R83). -/
def step (s : State) : Host.Outcome State Fault Refusal :=
  match s.fetch with
  | none => .fault .pcOutOfRange
  | some w =>
    match decodeWord w with
    | .instr i => exec i s
    | .unknownOpcode u => .next (s.skipUnknown u)

/-- `s` with the 16-bit word whose low `nbits` bits are those of `w` stored big-endian at `pc` (log entry 3). Where `pc`
cannot be fetched from there is no place for it, and `s` stays. -/
def State.withFetchWord (s : State) (nbits w : Nat) : State :=
  if s.fetchInRange then
    { s with memory := Memory.writeBytes s.memory s.pc.toNat (bytesOfWord (tableWord nbits w)) }
  else s

end Sys2Proof.Machine
end

