-- ==== Sys2Proof/Machine/Assembly.lean ====
section
/-! DEFINITION. The assembler syntax of spec R61 and R62, as lists of characters. It has no effect on the machine. -/

namespace Sys2Proof.Machine

/-- A hexadecimal digit, written in upper case as the spec's examples write it (log entry 5). -/
def hexDigit (d : BitVec 4) : Char :=
  if d.toNat < 10 then Char.ofNat (48 + d.toNat) else Char.ofNat (55 + d.toNat)

/-- The value of a hexadecimal digit of either case (log entry 5). -/
def hexValue (c : Char) : Option Nat :=
  if 48 ≤ c.toNat ∧ c.toNat ≤ 57 then some (c.toNat - 48)
  else if 65 ≤ c.toNat ∧ c.toNat ≤ 70 then some (c.toNat - 55)
  else if 97 ≤ c.toNat ∧ c.toNat ≤ 102 then some (c.toNat - 87)
  else none

/-- A register: `V` and one hexadecimal digit (R61). -/
def regText (r : Reg) : List Char := ['V', hexDigit (bitsOfReg r)]

/-- An 8-bit number: `0x` and two digits (R61). -/
def byteText (b : Byte) : List Char := ['0', 'x', hexDigit (b.extractLsb' 4 4), hexDigit (b.extractLsb' 0 4)]

/-- A 12-bit number: `0x` and three digits (R61). -/
def addrText (a : Addr) : List Char :=
  ['0', 'x', hexDigit (a.extractLsb' 8 4), hexDigit (a.extractLsb' 4 4), hexDigit (a.extractLsb' 0 4)]

/-- A mnemonic with one operand. -/
def textOne (m : List Char) (a : List Char) : List Char := m ++ ' ' :: a

/-- A mnemonic with two operands, separated by a comma and a space (R61). -/
def textTwo (m : List Char) (a b : List Char) : List Char := m ++ ' ' :: (a ++ ',' :: ' ' :: b)

/-- The text of an instruction (R61). -/
def disassemble : Instr → List Char
  | .ret => ['R', 'E', 'T']
  | .sys nnn => textOne ['S', 'Y', 'S'] (addrText nnn)
  | .jp nnn => textOne ['J', 'P'] (addrText nnn)
  | .call nnn => textOne ['C', 'A', 'L', 'L'] (addrText nnn)
  | .seByte x kk => textTwo ['S', 'E'] (regText x) (byteText kk)
  | .sneByte x kk => textTwo ['S', 'N', 'E'] (regText x) (byteText kk)
  | .seReg x y => textTwo ['S', 'E'] (regText x) (regText y)
  | .ldByte x kk => textTwo ['L', 'D'] (regText x) (byteText kk)
  | .addByte x kk => textTwo ['A', 'D', 'D'] (regText x) (byteText kk)
  | .ldReg x y => textTwo ['L', 'D'] (regText x) (regText y)
  | .orReg x y => textTwo ['O', 'R'] (regText x) (regText y)
  | .andReg x y => textTwo ['A', 'N', 'D'] (regText x) (regText y)
  | .xorReg x y => textTwo ['X', 'O', 'R'] (regText x) (regText y)
  | .addReg x y => textTwo ['A', 'D', 'D'] (regText x) (regText y)
  | .subReg x y => textTwo ['S', 'U', 'B'] (regText x) (regText y)
  | .shr x => textOne ['S', 'H', 'R'] (regText x)
  | .subnReg x y => textTwo ['S', 'U', 'B', 'N'] (regText x) (regText y)

/-- The text of a word, where a rule matches it: any `0x8xy6` prints as `SHR Vx` (R62). -/
def disassembleWord (w : Word) : Option (List Char) :=
  match decodeWord w with
  | .instr i => some (disassemble i)
  | .unknownOpcode _ => none

/-- An operand of the assembler: a register or a number (R61). -/
inductive Operand where
  | reg (r : Reg)
  | num (n : Nat)
  deriving DecidableEq, Repr

/-- The number the hexadecimal digits give, read after those with the value `acc`. -/
def hexNumber (acc : Nat) : List Char → Option Nat
  | [] => some acc
  | c :: cs =>
    match hexValue c with
    | some d => hexNumber (acc * 16 + d) cs
    | none => none

/-- One operand, taking the whole text: `V` and a digit, or `0x` and at least one digit. -/
def parseOperand : List Char → Option Operand
  | ['V', c] =>
    match hexValue c with
    | some d => if h : d < 16 then some (.reg ⟨d, h⟩) else none
    | none => none
  | '0' :: 'x' :: c :: cs =>
    match hexNumber 0 (c :: cs) with
    | some n => some (.num n)
    | none => none
  | _ => none

/-- The text up to the first space, and the text after it. -/
def splitSpace : List Char → List Char × Option (List Char)
  | [] => ([], none)
  | ' ' :: cs => ([], some cs)
  | c :: cs => (c :: (splitSpace cs).1, (splitSpace cs).2)

/-- The text up to the first comma and space, and the text after them. -/
def splitComma : List Char → List Char × Option (List Char)
  | [] => ([], none)
  | ',' :: ' ' :: cs => ([], some cs)
  | c :: cs => (c :: (splitComma cs).1, (splitComma cs).2)

/-- The mnemonic and the operand texts of a line: the mnemonic, a space, and at most two operands separated by a comma
and a space (R61). -/
def splitLine (cs : List Char) : List Char × List (List Char) :=
  match splitSpace cs with
  | (m, none) => (m, [])
  | (m, some rest) =>
    match splitComma rest with
    | (a, none) => (m, [a])
    | (a, some b) => (m, [a, b])

/-- An instruction with a 12-bit number operand. -/
def asmAddr (m : List Char) (n : Nat) : Option Instr :=
  if n < 4096 then
    if m = ['S', 'Y', 'S'] then some (.sys (BitVec.ofNat 12 n))
    else if m = ['J', 'P'] then some (.jp (BitVec.ofNat 12 n))
    else if m = ['C', 'A', 'L', 'L'] then some (.call (BitVec.ofNat 12 n))
    else none
  else none

/-- An instruction with a register and an 8-bit number operand. -/
def asmByte (m : List Char) (x : Reg) (n : Nat) : Option Instr :=
  if n < 256 then
    if m = ['S', 'E'] then some (.seByte x (BitVec.ofNat 8 n))
    else if m = ['S', 'N', 'E'] then some (.sneByte x (BitVec.ofNat 8 n))
    else if m = ['L', 'D'] then some (.ldByte x (BitVec.ofNat 8 n))
    else if m = ['A', 'D', 'D'] then some (.addByte x (BitVec.ofNat 8 n))
    else none
  else none

/-- An instruction with two register operands. -/
def asmReg (m : List Char) (x y : Reg) : Option Instr :=
  if m = ['S', 'E'] then some (.seReg x y)
  else if m = ['L', 'D'] then some (.ldReg x y)
  else if m = ['O', 'R'] then some (.orReg x y)
  else if m = ['A', 'N', 'D'] then some (.andReg x y)
  else if m = ['X', 'O', 'R'] then some (.xorReg x y)
  else if m = ['A', 'D', 'D'] then some (.addReg x y)
  else if m = ['S', 'U', 'B'] then some (.subReg x y)
  else if m = ['S', 'U', 'B', 'N'] then some (.subnReg x y)
  else none

/-- The instruction a mnemonic and its operands name; `SE`, `LD` and `ADD` are told apart by the second operand (R61),
and `SHR` takes no second one (R62). -/
def asmInstr (m : List Char) : List (Option Operand) → Option Instr
  | [] => if m = ['R', 'E', 'T'] then some .ret else none
  | [some (.num n)] => asmAddr m n
  | [some (.reg x)] => if m = ['S', 'H', 'R'] then some (.shr x) else none
  | [some (.reg x), some (.num n)] => asmByte m x n
  | [some (.reg x), some (.reg y)] => asmReg m x y
  | _ => none

/-- Assemble one line; `SYS 0x0EE` cannot be assembled (R62). -/
def assemble (cs : List Char) : Option Instr :=
  match asmInstr (splitLine cs).1 ((splitLine cs).2.map parseOperand) with
  | some i => if i.wf then some i else none
  | none => none

/-- The word the assembler writes for a line (R61, R62). -/
def assembleWord (cs : List Char) : Option Word := (assemble cs).map encode

end Sys2Proof.Machine
end

