-- ==== Sys2Proof/Machine/Boot.lean ====
section
/-! DEFINITION. Construction, reset and program load (spec R98 to R102). -/

namespace Sys2Proof.Machine

/-- `construct(memory_size, load_offset)` with the policy: the reset state, or no state where the parameters are
outside their ranges (R98, R4, R5). -/
def construct (memorySize loadOffset : Nat) (policy : RetEmptyPolicy) : Option State :=
  if Config.Legal { memorySize := memorySize, loadOffset := loadOffset, retEmptyPolicy := policy } then
    some (State.ofConfig { memorySize := memorySize, loadOffset := loadOffset, retEmptyPolicy := policy })
  else none

/-- `reset()`: the reset state of the same configuration, whatever the state before (R99). The model's own field
`events` starts again (log entry 2). -/
def State.doReset (s : State) : State := State.ofConfig s.config

/-- The error of `load_program` (R89). -/
inductive LoadError where
  /-- The image is longer than `MEMORY_SIZE - LOAD_OFFSET` (R100). Safe: nothing changes. -/
  | programTooLarge
  deriving DecidableEq, Repr

/-- What `load_program` answers. -/
inductive LoadResult where
  | loaded (s : State)
  | failed (e : LoadError)
  deriving DecidableEq, Repr

/-- `load_program(bytes)`: the size check, a full reset, then the copy; no change at all on failure (R100). -/
def State.loadProgram (s : State) (bytes : List Byte) : LoadResult :=
  if s.config.loadOffset + bytes.length > s.config.memorySize then .failed .programTooLarge
  else
    .loaded { s.doReset with memory := Memory.writeBytes s.doReset.memory s.config.loadOffset bytes }

end Sys2Proof.Machine
end

