-- ==== Sys2Proof/Machine/Transact.lean ====
section
/-! DEFINITION. The report of a step (spec R84, R88) and the host's transactions on a constructed state (R96). -/

namespace Sys2Proof.Machine

/-- What a transaction gives back to the host (R84, R96). -/
inductive Reply where
  | ok
  /-- `Err(StackOverflow)` of a step (R85). -/
  | stackOverflow
  /-- `Fault(PcOutOfRange)` of a step (R86). -/
  | pcOutOfRange
  /-- `Err(ProgramTooLarge)` of a load (R89). -/
  | programTooLarge
  /-- DESIGN CHOICE (log entry 4): a host write to an address outside memory; nothing changes. -/
  | noSuchAddress
  /-- A step without a meaning; no step of this model answers it. -/
  | refused (r : Refusal)
  deriving DecidableEq, Repr

/-- The state after a transaction, its reply, and the event it emitted, zero or one (R84, R96). -/
structure Report where
  state : State
  reply : Reply
  event : Option Event
  deriving DecidableEq, Repr

/-- The event that the step from `s` to `t` emitted: the one entry `t.events` has beyond those of `s` (R84). -/
def emitted (s t : State) : Option Event := (t.events.drop s.events.length).head?

/-- The transaction `step()`: after an error or a fault the state is the state before (R84, R91). -/
def stepReport (s : State) : Report :=
  match step s with
  | .next t => { state := t, reply := .ok, event := emitted s t }
  | .fault .stackOverflow => { state := s, reply := .stackOverflow, event := none }
  | .fault .pcOutOfRange => { state := s, reply := .pcOutOfRange, event := none }
  | .refused r => { state := s, reply := .refused r, event := none }

/-- The host's transactions on a constructed state (R96). -/
inductive Transaction where
  | step
  | reset
  | loadProgram (bytes : List Byte)
  /-- Reading any state changes nothing (R30). -/
  | readState
  | writeMemory (a : Nat) (b : Byte)
  | writeDT (b : Byte)
  | writeST (b : Byte)
  deriving DecidableEq, Repr

/-- A host write of one byte of memory, between steps (R30). -/
def hostWriteMemory (s : State) (a : Nat) (b : Byte) : Report :=
  match s.memWrite a b with
  | some t => { state := t, reply := .ok, event := none }
  | none => { state := s, reply := .noSuchAddress, event := none }

/-- `load_program` as a transaction: on failure the prior state stays (R100). -/
def loadReport (s : State) (bytes : List Byte) : Report :=
  match s.loadProgram bytes with
  | .loaded t => { state := t, reply := .ok, event := none }
  | .failed .programTooLarge => { state := s, reply := .programTooLarge, event := none }

/-- One transaction of the host (R96). -/
def transact (s : State) : Transaction → Report
  | .step => stepReport s
  | .reset => { state := s.doReset, reply := .ok, event := none }
  | .loadProgram bytes => loadReport s bytes
  | .readState => { state := s, reply := .ok, event := none }
  | .writeMemory a b => hostWriteMemory s a b
  | .writeDT b => { state := { s with DT := b }, reply := .ok, event := none }
  | .writeST b => { state := { s with ST := b }, reply := .ok, event := none }

/-- The state after a sequence of transactions. -/
def transactAll : State → List Transaction → State
  | s, [] => s
  | s, t :: ts => transactAll (transact s t).state ts

end Sys2Proof.Machine
end

