-- ==== Sys2Proof/Safety.lean ====
section
/-! DEFINITION. What claims about the block are stated in: the invariant of its state, when a step completes, the end
of a run (spec R109) and the hang of R110. -/

namespace Sys2Proof.Machine

/-- The invariant of a constructed state: its parameters are legal (R4, R5), its memory is in canonical form, and
every listed byte lies below `MEMORY_SIZE` (R26). -/
def StateInv (s : State) : Prop :=
  s.config.Legal ∧ Memory.wf s.memory = true ∧ Memory.below s.config.memorySize s.memory = true

/-- The word at `pc` is a `CALL` and the stack is full (R66, R85). -/
def CallOnFullStack (s : State) : Prop :=
  s.sp.val = 16 ∧ ∃ w, s.fetch = some w ∧ fieldOp w = 2

/-- The condition under which a step returns `Ok` (R84). -/
def StepReady (s : State) : Prop :=
  s.pc.toNat + 1 < s.config.memorySize ∧ ¬ CallOnFullStack s

/-- `s` goes to `t` in `k` steps, each answering a next state. -/
def Runs : Nat → State → State → Prop
  | 0, s, t => s = t
  | k + 1, s, t => ∃ u, step s = .next u ∧ Runs k u t

/-- As `Runs`, with `floor ≤ sp` in every state on the way, both ends included. -/
def RunsAbove (floor : Nat) : Nat → State → State → Prop
  | 0, s, t => floor ≤ s.sp.val ∧ s = t
  | k + 1, s, t => floor ≤ s.sp.val ∧ ∃ u, step s = .next u ∧ RunsAbove floor k u t

/-- `pc` addresses a `JP addr` whose `nnn` equals `pc` (R109). -/
def SelfJump (s : State) : Prop :=
  ∃ w nnn, s.fetch = some w ∧ decodeWord w = .instr (.jp nnn) ∧ nnn.toNat = s.pc.toNat

/-- The run has ended: the step answers an error or a fault, or `pc` addresses a self-jump (R109). -/
def RunEnded (s : State) : Prop := (∃ f, step s = .fault f) ∨ SelfJump s

/-- `pc` addresses a `RET` held on an empty stack: a hang, not an end (R110). -/
def HeldReturn (s : State) : Prop :=
  s.fetch = some 0x00EE ∧ s.sp.val = 0 ∧ s.config.retEmptyPolicy = .hold

/-! ### The terms of frames and results -/

/-- `pc` has advanced by `n`, reduced `mod 2^16` (R19). -/
def PcBy (n : Nat) (s t : State) : Prop := t.pc.toNat = (s.pc.toNat + n) % 65536

/-- Every register but those of `rs` is unchanged. -/
def SameRegsBut (rs : List Reg) (s t : State) : Prop := ∀ r : Reg, r ∉ rs → t.readV r = s.readV r

/-- The stack and its pointer are unchanged. -/
def SameStack (s t : State) : Prop := t.stack = s.stack ∧ t.sp = s.sp

/-- Every byte of memory reads as before. -/
def SameMemory (s t : State) : Prop := ∀ a : Nat, Memory.readByte t.memory a = Memory.readByte s.memory a

/-- The index register, the timers, the configuration and every byte of memory are unchanged. -/
def SameRest (s t : State) : Prop :=
  t.I = s.I ∧ t.DT = s.DT ∧ t.ST = s.ST ∧ t.config = s.config ∧ SameMemory s t

/-- The frame of an instruction that writes the registers `rs` and `pc` and nothing else, and emits no event. -/
def RegFrame (rs : List Reg) (s t : State) : Prop :=
  SameRegsBut rs s t ∧ SameStack s t ∧ SameRest s t ∧ t.events = s.events

/-- The registers an instruction writes: its destination `x`, and `VF` for a rule with a flag (R13, R15). -/
def writtenRegs : Instr → List Reg
  | .ret => []
  | .sys _ => []
  | .jp _ => []
  | .call _ => []
  | .seByte _ _ => []
  | .sneByte _ _ => []
  | .seReg _ _ => []
  | .ldByte x _ => [x]
  | .addByte x _ => [x]
  | .ldReg x _ => [x]
  | .orReg x _ => [x]
  | .andReg x _ => [x]
  | .xorReg x _ => [x]
  | .addReg x _ => [x, vf]
  | .subReg x _ => [x, vf]
  | .shr x => [x, vf]
  | .subnReg x _ => [x, vf]

/-- The state holds the reset values of R31: everything zero but `pc`, which is `LOAD_OFFSET`. -/
def ResetValues (t : State) : Prop :=
  (∀ r : Reg, t.readV r = 0) ∧ (∀ j : Fin 16, t.stack[j.val] = 0) ∧ t.sp.val = 0 ∧
    t.pc.toNat = t.config.loadOffset ∧ t.I = 0 ∧ t.DT = 0 ∧ t.ST = 0 ∧
    ∀ a : Nat, Memory.readByte t.memory a = 0

/-- The decision tree R55 gives for decode, on the integers of the word's nibbles. -/
def decisionTree (w : Word) : Decoded :=
  match w.toNat / 4096 with
  | 0 => if w = 0x00EE then .instr .ret else .instr (.sys (fieldNNN w))
  | 1 => .instr (.jp (fieldNNN w))
  | 2 => .instr (.call (fieldNNN w))
  | 3 => .instr (.seByte (fieldX w) (fieldKK w))
  | 4 => .instr (.sneByte (fieldX w) (fieldKK w))
  | 5 => if w.toNat % 16 = 0 then .instr (.seReg (fieldX w) (fieldY w)) else .unknownOpcode w
  | 6 => .instr (.ldByte (fieldX w) (fieldKK w))
  | 7 => .instr (.addByte (fieldX w) (fieldKK w))
  | 8 =>
    match w.toNat % 16 with
    | 0 => .instr (.ldReg (fieldX w) (fieldY w))
    | 1 => .instr (.orReg (fieldX w) (fieldY w))
    | 2 => .instr (.andReg (fieldX w) (fieldY w))
    | 3 => .instr (.xorReg (fieldX w) (fieldY w))
    | 4 => .instr (.addReg (fieldX w) (fieldY w))
    | 5 => .instr (.subReg (fieldX w) (fieldY w))
    | 6 => .instr (.shr (fieldX w))
    | 7 => .instr (.subnReg (fieldX w) (fieldY w))
    | _ => .unknownOpcode w
  | _ => .unknownOpcode w

/-- The table of R18: `pc` after a step that decoded `d` in state `s`. -/
def pcTable (s : State) : Decoded → Nat
  | .unknownOpcode _ => (s.pc.toNat + 2) % 65536
  | .instr .ret =>
    if h : 0 < s.sp.val then (s.stack[s.sp.val - 1]'(by have := s.sp.isLt; omega)).toNat
    else if s.config.retEmptyPolicy = .hold then s.pc.toNat else (s.pc.toNat + 2) % 65536
  | .instr (.sys _) => (s.pc.toNat + 2) % 65536
  | .instr (.jp nnn) => nnn.toNat
  | .instr (.call nnn) => if s.sp.val = 16 then s.pc.toNat else nnn.toNat
  | .instr (.seByte x kk) => if s.readV x = kk then (s.pc.toNat + 4) % 65536 else (s.pc.toNat + 2) % 65536
  | .instr (.sneByte x kk) => if s.readV x = kk then (s.pc.toNat + 2) % 65536 else (s.pc.toNat + 4) % 65536
  | .instr (.seReg x y) => if s.readV x = s.readV y then (s.pc.toNat + 4) % 65536 else (s.pc.toNat + 2) % 65536
  | .instr (.ldByte _ _) => (s.pc.toNat + 2) % 65536
  | .instr (.addByte _ _) => (s.pc.toNat + 2) % 65536
  | .instr (.ldReg _ _) => (s.pc.toNat + 2) % 65536
  | .instr (.orReg _ _) => (s.pc.toNat + 2) % 65536
  | .instr (.andReg _ _) => (s.pc.toNat + 2) % 65536
  | .instr (.xorReg _ _) => (s.pc.toNat + 2) % 65536
  | .instr (.addReg _ _) => (s.pc.toNat + 2) % 65536
  | .instr (.subReg _ _) => (s.pc.toNat + 2) % 65536
  | .instr (.shr _) => (s.pc.toNat + 2) % 65536
  | .instr (.subnReg _ _) => (s.pc.toNat + 2) % 65536

/-- The steps from `s` and from `t` stop in the same way, or both go on: the next states then agree on the registers,
the stack, `sp`, `pc` and the configuration, both steps emit the same events, and the step from `t` leaves the other
fields of `t` as they were. -/
def SameStepBut (s t : State) : Prop :=
  (∀ f, step s = .fault f ↔ step t = .fault f) ∧ (∀ r, step s = .refused r ↔ step t = .refused r) ∧
    ∀ u, step s = .next u → ∃ v, step t = .next v ∧ v.V = u.V ∧ v.stack = u.stack ∧ v.sp = u.sp ∧ v.pc = u.pc ∧
      v.config = u.config ∧ v.I = t.I ∧ v.DT = t.DT ∧ v.ST = t.ST ∧ v.memory = t.memory ∧
      ∃ es, u.events = s.events ++ es ∧ v.events = t.events ++ es

end Sys2Proof.Machine
end

