-- ==== Sys2Proof/Certificates/Slice0/Obligations.lean ====
section
/-! DEFINITION. The statements for the provers. Every number in them is the spec's: words are read as integers, so a
field of a word is a quotient and a remainder, and a wrapped sum is a remainder. -/

open Sys2Proof Sys2Proof.Machine

/-! ## Encoding and decode -/

/-- Decoding the word of a well-formed instruction gives the instruction back, for every operand (30_encoding.md
sections 2 and 4). -/
def Obligations.DecodeOfEncodeIsIdentity : Prop :=
  ∀ i : Instr, i.wf = true → decodeWord (encode i) = .instr i

/-- A decoded instruction is well-formed, and encoding it gives its word back; for `SHR Vx` the word comes back with
`y = 0`, since the field is not read (30_encoding.md sections 2 to 4). -/
def Obligations.EncodeOfDecodeIsTheWord : Prop :=
  ∀ (w : Word) (i : Instr), decodeWord w = .instr i →
    i.wf = true ∧ ((∀ x, i ≠ .shr x) → encode i = w) ∧ ((∃ x, i = .shr x) → encode i = w &&& 0xFF0F)

/-- R53, R54: the selected rule is the first one in table order whose masked word equals its pattern, and `RET`
(mask `0xFFFF`) stands before `SYS` (mask `0xF000`). -/
def Obligations.FirstMatchingRuleIsSelected : Prop :=
  (∀ (w : Word) (n : Nat) (r : Rule), ruleTable[n]? = some r → w &&& r.mask = r.pattern →
      (∀ (m : Nat) (q : Rule), m < n → ruleTable[m]? = some q → w &&& q.mask ≠ q.pattern) →
      decodeWord w = .instr (r.build w)) ∧
    (∀ w : Word, (∀ (n : Nat) (r : Rule), ruleTable[n]? = some r → w &&& r.mask ≠ r.pattern) →
      decodeWord w = .unknownOpcode w) ∧
    (∃ r q : Rule, ruleTable[0]? = some r ∧ r.mask = 0xFFFF ∧ r.pattern = 0x00EE ∧
      ruleTable[1]? = some q ∧ q.mask = 0xF000 ∧ q.pattern = 0x0000) ∧
    decodeWord 0x00EE = .instr .ret

/-- Two different rules of the table match one word only if they are `RET` and `SYS` and the word is `0x00EE` (the
inference of 30_encoding.md section 2 on the overlap). -/
def Obligations.OnlyRetAndSysOverlap : Prop :=
  ∀ (w : Word) (m n : Nat) (q r : Rule), m < n → ruleTable[m]? = some q → ruleTable[n]? = some r →
    w &&& q.mask = q.pattern → w &&& r.mask = r.pattern → m = 0 ∧ n = 1 ∧ w = 0x00EE

/-- Decode by the rule table equals the decision tree (the inference of 30_encoding.md section 2). -/
def Obligations.DecodeEqualsDecisionTree : Prop := ∀ w : Word, decodeWord w = decisionTree w

/-- The words no rule matches are `0x5xyN` with `N` not 0, `0x8xyN` with `N` in 8 to F, and all from `0x9000` on (the
inference of 30_encoding.md section 3). -/
def Obligations.UnknownWordsAreExactly : Prop :=
  ∀ w : Word, decodeWord w = .unknownOpcode w ↔
    (w.toNat / 4096 = 5 ∧ w.toNat % 16 ≠ 0) ∨ (w.toNat / 4096 = 8 ∧ 8 ≤ w.toNat % 16) ∨ 9 ≤ w.toNat / 4096

/-- A sanity check of a few words of the spec's tables (30_encoding.md sections 2 and 4, 95_test_vectors.md). -/
def Obligations.SampleWordsDecode : Prop :=
  decodeWord 0x00EE = .instr .ret ∧ decodeWord 0x00E0 = .instr (.sys 0x0E0) ∧
    decodeWord 0x2345 = .instr (.call 0x345) ∧ decodeWord 0x6A0A = .instr (.ldByte 10 0x0A) ∧
    decodeWord 0x8344 = .instr (.addReg 3 4) ∧ decodeWord 0x83F6 = .instr (.shr 3) ∧
    decodeWord 0xA123 = .unknownOpcode 0xA123

/-- The assembler reads back the text the disassembler prints, for every well-formed instruction, and assembles nothing
ill-formed (30_encoding.md section 4; the digit forms are the model's choice, log entry 5). -/
def Obligations.AssembleOfDisassembleIsIdentity : Prop :=
  (∀ i : Instr, i.wf = true → assemble (disassemble i) = some i) ∧
    ∀ (cs : List Char) (i : Instr), assemble cs = some i → i.wf = true

/-! ## The step -/

/-- R35: the word a step fetches is `memory[pc]` times 256 plus `memory[pc + 1]`, and the step is the effect of that
word, read from memory as it stands. -/
def Obligations.FetchReadsBigEndianWord : Prop :=
  ∀ s : State, s.pc.toNat + 1 < s.config.memorySize →
    ∃ w : Word, s.fetch = some w ∧
      w.toNat = (Memory.readByte s.memory s.pc.toNat).toNat * 256 +
        (Memory.readByte s.memory (s.pc.toNat + 1)).toNat ∧
      (∀ i : Instr, decodeWord w = .instr i → step s = exec i s) ∧
      (decodeWord w = .unknownOpcode w → step s = .next (s.skipUnknown w))

/-- A step runs the decoded instruction: where the two bytes at `pc` lie in memory and decode to `i`, the step is
`exec i` at that very state, `pc` not yet advanced (60_exceptions.md section 1, 10_state.md section 2). -/
def Obligations.StepRunsDecodedInstruction : Prop :=
  ∀ (s : State) (i : Instr), s.pc.toNat + 1 < s.config.memorySize →
    decodeBytes [Memory.readByte s.memory s.pc.toNat, Memory.readByte s.memory (s.pc.toNat + 1)] =
      some (.instr i, []) →
    step s = exec i s

/-- The unknown-opcode path: outcome `Ok`, one event with the word and its address, `pc` advanced by 2, nothing else
changed (the spec's decision D8; the event is kept in the model's own field, log entry 2). -/
def Obligations.UnknownWordIsSkippedWithOneEvent : Prop :=
  ∀ (s : State) (w : Word), s.fetch = some w → decodeWord w = .unknownOpcode w →
    ∃ t, step s = .next t ∧ PcBy 2 s t ∧ SameRegsBut [] s t ∧ SameStack s t ∧ SameRest s t ∧
      t.events = s.events ++ [{ kind := .unknownOpcode, opcode := w, address := s.pc }] ∧
      stepReport s =
        { state := t, reply := .ok, event := some { kind := .unknownOpcode, opcode := w, address := s.pc } }

/-- A step faults with `PcOutOfRange` exactly where `pc + 1 >= MEMORY_SIZE`, the sum not wrapped (the spec's decision
D3). -/
def Obligations.PcOutOfRangeExactly : Prop :=
  ∀ s : State, step s = .fault .pcOutOfRange ↔ s.config.memorySize ≤ s.pc.toNat + 1

/-- R85: a step answers `StackOverflow` exactly where the word fetched is a `CALL` and `sp = 16`, and then nothing in
the state changes. -/
def Obligations.StackOverflowExactly : Prop :=
  (∀ s : State, step s = .fault .stackOverflow ↔
      s.pc.toNat + 1 < s.config.memorySize ∧ s.sp.val = 16 ∧
        (Memory.readByte s.memory s.pc.toNat).toNat / 16 = 2) ∧
    (∀ (i : Instr) (s : State), exec i s = .fault .stackOverflow → (∃ nnn, i = .call nnn) ∧ s.sp.val = 16) ∧
    ∀ s : State, step s = .fault .stackOverflow →
      stepReport s = { state := s, reply := .stackOverflow, event := none }

/-- A step completes exactly where the fetch is in range and it is no `CALL` on a full stack, and no step is ever
refused (60_exceptions.md sections 1 to 3; the fault on a fetch out of range is the spec's decision D3). -/
def Obligations.StepCompletesExactlyWhenReady : Prop :=
  (∀ s : State, StepReady s ↔ ∃ t, step s = .next t) ∧ ∀ (s : State) (r : Refusal), step s ≠ .refused r

/-- A step emits at most one event: none, or the fetched word and its address, `UnknownOpcode` exactly on the unknown
path, `EmptyStackReturn` exactly for `RET` at `sp = 0` under `REPORT` (60_exceptions.md sections 1 and 2; the `kind` is the
spec's decision D6, the field that keeps the events is the model's, log entry 2). -/
def Obligations.AtMostOneEventPerStep : Prop :=
  ∀ (s t : State) (w : Word), s.fetch = some w → step s = .next t →
    (stepReport s).event =
        (if decodeWord w = .unknownOpcode w then some { kind := .unknownOpcode, opcode := w, address := s.pc }
         else if w = 0x00EE ∧ s.sp.val = 0 ∧ s.config.retEmptyPolicy = .report then
           some { kind := .emptyStackReturn, opcode := w, address := s.pc }
         else none) ∧
      t.events = s.events ++ (stepReport s).event.toList

/-- After an error or a fault the state is the state before the step, no event is emitted, and the step repeated gives
the same report (60_exceptions.md section 4). -/
def Obligations.FailedStepLeavesTheState : Prop :=
  ∀ s : State, (stepReport s).reply ≠ .ok →
    (stepReport s).state = s ∧ (stepReport s).event = none ∧ stepReport (stepReport s).state = stepReport s ∧
      ((stepReport s).reply = .stackOverflow ∨ (stepReport s).reply = .pcOutOfRange)

/-! ## Control transfer -/

/-- R63. -/
def Obligations.SysOnlyAdvancesPc : Prop :=
  (∀ w : Word, w &&& 0xF000 = 0x0000 → w ≠ 0x00EE →
      ∃ nnn : Addr, nnn.toNat = w.toNat % 4096 ∧ decodeWord w = .instr (.sys nnn)) ∧
    ∀ (nnn : Addr) (s : State), ∃ t, exec (.sys nnn) s = .next t ∧ PcBy 2 s t ∧ RegFrame [] s t

/-- `RET` on a stack that is not empty: `sp` falls by one, `pc` becomes the entry there with no further increment, the
slot keeps its value, nothing else changes (40_control.md, `RET`; conflict C1; stale slots are the spec's decision D10). -/
def Obligations.RetPopsTheReturnAddress : Prop :=
  (∀ w : Word, w &&& 0xFFFF = 0x00EE → decodeWord w = .instr .ret) ∧
    ∀ (s : State) (n : Nat) (h : n < 16), s.sp.val = n + 1 →
      ∃ t, exec .ret s = .next t ∧ t.sp.val = n ∧ t.pc = s.stack[n] ∧ t.stack = s.stack ∧
        SameRegsBut [] s t ∧ SameRest s t ∧ t.events = s.events

/-- `RET` on an empty stack, for both values of `RET_EMPTY_POLICY` (the spec's decision D6 and conflict C6; the machine
of `State.reset` takes `HOLD`, log entry 1): under `HOLD` nothing changes; under `REPORT` one event, `pc` advances by 2. -/
def Obligations.RetOnEmptyStackByPolicy : Prop :=
  ∀ s : State, s.sp.val = 0 →
    (s.config.retEmptyPolicy = .hold → exec .ret s = .next s) ∧
      (s.config.retEmptyPolicy = .report →
        ∃ t, exec .ret s = .next t ∧ PcBy 2 s t ∧ SameRegsBut [] s t ∧ SameStack s t ∧ SameRest s t ∧
          t.events = s.events ++ [{ kind := .emptyStackReturn, opcode := 0x00EE, address := s.pc }])

/-- R65. -/
def Obligations.JpJumpsToTheAbsoluteTarget : Prop :=
  (∀ w : Word, w &&& 0xF000 = 0x1000 →
      ∃ nnn : Addr, nnn.toNat = w.toNat % 4096 ∧ decodeWord w = .instr (.jp nnn)) ∧
    ∀ (nnn : Addr) (s : State), ∃ t, exec (.jp nnn) s = .next t ∧ t.pc.toNat = nnn.toNat ∧ RegFrame [] s t ∧
      (nnn.toNat = s.pc.toNat → t = s)

/-- R66: on a stack that is not full, `CALL` pushes `pc + 2` and jumps; on a full one it answers `StackOverflow`. -/
def Obligations.CallPushesAndJumps : Prop :=
  (∀ w : Word, w &&& 0xF000 = 0x2000 →
      ∃ nnn : Addr, nnn.toNat = w.toNat % 4096 ∧ decodeWord w = .instr (.call nnn)) ∧
    (∀ (nnn : Addr) (s : State), s.sp.val ≠ 16 →
      ∃ t, exec (.call nnn) s = .next t ∧ t.sp.val = s.sp.val + 1 ∧ t.pc.toNat = nnn.toNat ∧
        (∀ j : Fin 16, j.val = s.sp.val → (t.stack[j.val]).toNat = (s.pc.toNat + 2) % 65536) ∧
        (∀ j : Fin 16, j.val ≠ s.sp.val → t.stack[j.val] = s.stack[j.val]) ∧
        SameRegsBut [] s t ∧ SameRest s t ∧ t.events = s.events) ∧
    ∀ (nnn : Addr) (s : State), s.sp.val = 16 → exec (.call nnn) s = .fault .stackOverflow

/-- R67. -/
def Obligations.SeByteSkipsIfEqual : Prop :=
  (∀ w : Word, w &&& 0xF000 = 0x3000 → ∃ (x : Reg) (kk : Byte), x.val = w.toNat / 256 % 16 ∧
      kk.toNat = w.toNat % 256 ∧ decodeWord w = .instr (.seByte x kk)) ∧
    ∀ (x : Reg) (kk : Byte) (s : State), ∃ t, exec (.seByte x kk) s = .next t ∧
      ((s.readV x).toNat = kk.toNat → PcBy 4 s t) ∧ ((s.readV x).toNat ≠ kk.toNat → PcBy 2 s t) ∧ RegFrame [] s t

/-- R68. -/
def Obligations.SneByteSkipsIfNotEqual : Prop :=
  (∀ w : Word, w &&& 0xF000 = 0x4000 → ∃ (x : Reg) (kk : Byte), x.val = w.toNat / 256 % 16 ∧
      kk.toNat = w.toNat % 256 ∧ decodeWord w = .instr (.sneByte x kk)) ∧
    ∀ (x : Reg) (kk : Byte) (s : State), ∃ t, exec (.sneByte x kk) s = .next t ∧
      ((s.readV x).toNat ≠ kk.toNat → PcBy 4 s t) ∧ ((s.readV x).toNat = kk.toNat → PcBy 2 s t) ∧ RegFrame [] s t

/-- R69: and `0x5xyN` with `N` not 0 is no word of this rule. -/
def Obligations.SeRegSkipsIfRegistersEqual : Prop :=
  (∀ w : Word, w &&& 0xF00F = 0x5000 → ∃ x y : Reg, x.val = w.toNat / 256 % 16 ∧ y.val = w.toNat / 16 % 16 ∧
      decodeWord w = .instr (.seReg x y)) ∧
    (∀ w : Word, w.toNat / 4096 = 5 → w.toNat % 16 ≠ 0 → decodeWord w = .unknownOpcode w) ∧
    ∀ (x y : Reg) (s : State), ∃ t, exec (.seReg x y) s = .next t ∧
      ((s.readV x).toNat = (s.readV y).toNat → PcBy 4 s t) ∧
      ((s.readV x).toNat ≠ (s.readV y).toNat → PcBy 2 s t) ∧ RegFrame [] s t

/-! ## Register-immediate operations -/

/-- R71. -/
def Obligations.LdByteLoadsTheImmediate : Prop :=
  (∀ w : Word, w &&& 0xF000 = 0x6000 → ∃ (x : Reg) (kk : Byte), x.val = w.toNat / 256 % 16 ∧
      kk.toNat = w.toNat % 256 ∧ decodeWord w = .instr (.ldByte x kk)) ∧
    ∀ (x : Reg) (kk : Byte) (s : State), ∃ t, exec (.ldByte x kk) s = .next t ∧ t.readV x = kk ∧ PcBy 2 s t ∧
      RegFrame [x] s t

/-- R72: the sum wraps and sets no flag; `VF` changes only where it is the destination. -/
def Obligations.AddByteWrapsWithoutFlag : Prop :=
  (∀ w : Word, w &&& 0xF000 = 0x7000 → ∃ (x : Reg) (kk : Byte), x.val = w.toNat / 256 % 16 ∧
      kk.toNat = w.toNat % 256 ∧ decodeWord w = .instr (.addByte x kk)) ∧
    ∀ (x : Reg) (kk : Byte) (s : State), ∃ t, exec (.addByte x kk) s = .next t ∧
      (t.readV x).toNat = ((s.readV x).toNat + kk.toNat) % 256 ∧ PcBy 2 s t ∧ RegFrame [x] s t

/-! ## Register-register operations -/

/-- R74. -/
def Obligations.LdRegMovesTheRegister : Prop :=
  (∀ w : Word, w &&& 0xF00F = 0x8000 → ∃ x y : Reg, x.val = w.toNat / 256 % 16 ∧ y.val = w.toNat / 16 % 16 ∧
      decodeWord w = .instr (.ldReg x y)) ∧
    ∀ (x y : Reg) (s : State), ∃ t, exec (.ldReg x y) s = .next t ∧ t.readV x = s.readV y ∧ PcBy 2 s t ∧
      RegFrame [x] s t

/-- `OR`, bit by bit; `VF` is unchanged unless it is the destination (the spec's decision D7). -/
def Obligations.OrRegIsBitwiseAndKeepsVF : Prop :=
  (∀ w : Word, w &&& 0xF00F = 0x8001 → ∃ x y : Reg, x.val = w.toNat / 256 % 16 ∧ y.val = w.toNat / 16 % 16 ∧
      decodeWord w = .instr (.orReg x y)) ∧
    ∀ (x y : Reg) (s : State), ∃ t, exec (.orReg x y) s = .next t ∧
      (∀ k, (t.readV x).getLsbD k = ((s.readV x).getLsbD k || (s.readV y).getLsbD k)) ∧ PcBy 2 s t ∧
      RegFrame [x] s t

/-- `AND`, bit by bit; `VF` is unchanged unless it is the destination (the spec's decision D7). -/
def Obligations.AndRegIsBitwiseAndKeepsVF : Prop :=
  (∀ w : Word, w &&& 0xF00F = 0x8002 → ∃ x y : Reg, x.val = w.toNat / 256 % 16 ∧ y.val = w.toNat / 16 % 16 ∧
      decodeWord w = .instr (.andReg x y)) ∧
    ∀ (x y : Reg) (s : State), ∃ t, exec (.andReg x y) s = .next t ∧
      (∀ k, (t.readV x).getLsbD k = ((s.readV x).getLsbD k && (s.readV y).getLsbD k)) ∧ PcBy 2 s t ∧
      RegFrame [x] s t

/-- `XOR`, bit by bit; `VF` is unchanged unless it is the destination (the spec's decision D7). -/
def Obligations.XorRegIsBitwiseAndKeepsVF : Prop :=
  (∀ w : Word, w &&& 0xF00F = 0x8003 → ∃ x y : Reg, x.val = w.toNat / 256 % 16 ∧ y.val = w.toNat / 16 % 16 ∧
      decodeWord w = .instr (.xorReg x y)) ∧
    ∀ (x y : Reg) (s : State), ∃ t, exec (.xorReg x y) s = .next t ∧
      (∀ k, (t.readV x).getLsbD k = Bool.xor ((s.readV x).getLsbD k) ((s.readV y).getLsbD k)) ∧ PcBy 2 s t ∧
      RegFrame [x] s t

/-- R78: the carry is written last, so `x = 15` leaves the carry. -/
def Obligations.AddRegSetsCarry : Prop :=
  (∀ w : Word, w &&& 0xF00F = 0x8004 → ∃ x y : Reg, x.val = w.toNat / 256 % 16 ∧ y.val = w.toNat / 16 % 16 ∧
      decodeWord w = .instr (.addReg x y)) ∧
    ∀ (x y : Reg) (s : State), ∃ t, exec (.addReg x y) s = .next t ∧
      (x ≠ 15 → (t.readV x).toNat = ((s.readV x).toNat + (s.readV y).toNat) % 256) ∧
      (t.readV 15).toNat = (if (s.readV x).toNat + (s.readV y).toNat > 255 then 1 else 0) ∧
      PcBy 2 s t ∧ RegFrame [x, 15] s t

/-- R79: the not-borrow is written last, so `x = 15` leaves the flag. -/
def Obligations.SubRegSetsNotBorrow : Prop :=
  (∀ w : Word, w &&& 0xF00F = 0x8005 → ∃ x y : Reg, x.val = w.toNat / 256 % 16 ∧ y.val = w.toNat / 16 % 16 ∧
      decodeWord w = .instr (.subReg x y)) ∧
    ∀ (x y : Reg) (s : State), ∃ t, exec (.subReg x y) s = .next t ∧
      (x ≠ 15 → ((t.readV x).toNat : Int) = ((s.readV x).toNat - (s.readV y).toNat : Int) % 256) ∧
      (t.readV 15).toNat = (if (s.readV x).toNat ≥ (s.readV y).toNat then 1 else 0) ∧
      PcBy 2 s t ∧ RegFrame [x, 15] s t

/-- R80: any `y` decodes to the same instruction, and the bit shifted out is written last. -/
def Obligations.ShrShiftsVxAndSetsBitZero : Prop :=
  (∀ w : Word, w &&& 0xF00F = 0x8006 → ∃ x : Reg, x.val = w.toNat / 256 % 16 ∧ decodeWord w = .instr (.shr x)) ∧
    ∀ (x : Reg) (s : State), ∃ t, exec (.shr x) s = .next t ∧
      (x ≠ 15 → (t.readV x).toNat = (s.readV x).toNat / 2) ∧ (t.readV 15).toNat = (s.readV x).toNat % 2 ∧
      PcBy 2 s t ∧ RegFrame [x, 15] s t

/-- R81: `Vy - Vx` into `Vx`; the not-borrow is written last. -/
def Obligations.SubnRegSetsNotBorrow : Prop :=
  (∀ w : Word, w &&& 0xF00F = 0x8007 → ∃ x y : Reg, x.val = w.toNat / 256 % 16 ∧ y.val = w.toNat / 16 % 16 ∧
      decodeWord w = .instr (.subnReg x y)) ∧
    ∀ (x y : Reg) (s : State), ∃ t, exec (.subnReg x y) s = .next t ∧
      (x ≠ 15 → ((t.readV x).toNat : Int) = ((s.readV y).toNat - (s.readV x).toNat : Int) % 256) ∧
      (t.readV 15).toNat = (if (s.readV y).toNat ≥ (s.readV x).toNat then 1 else 0) ∧
      PcBy 2 s t ∧ RegFrame [x, 15] s t

/-- The arithmetic laws of the flag-producing rules for `x` not 15 (the inference of 42_alu.md section 4). -/
def Obligations.FlagAndResultRecoverTheOperands : Prop :=
  ∀ (x y : Reg) (s t : State), x ≠ 15 →
    (exec (.addReg x y) s = .next t →
      (t.readV x).toNat + 256 * (t.readV 15).toNat = (s.readV x).toNat + (s.readV y).toNat) ∧
    (exec (.subReg x y) s = .next t →
      ((t.readV x).toNat : Int) = (s.readV x).toNat - (s.readV y).toNat + 256 * (1 - (t.readV 15).toNat)) ∧
    (exec (.subnReg x y) s = .next t →
      ((t.readV x).toNat : Int) = (s.readV y).toNat - (s.readV x).toNat + 256 * (1 - (t.readV 15).toNat)) ∧
    (exec (.shr x) s = .next t → 2 * (t.readV x).toNat + (t.readV 15).toNat = (s.readV x).toNat)

/-! ## The whole machine -/

/-- A step writes no register but the destination its word names, and `VF` for the four rules with a flag; such a flag
is 0 or 1 (10_state.md section 1; that nothing else is written is the spec's decision D7). -/
def Obligations.StepWritesOnlyTheNamedRegisters : Prop :=
  (∀ (s t : State) (w : Word), s.fetch = some w → step s = .next t →
      (∀ i : Instr, decodeWord w = .instr i → SameRegsBut (writtenRegs i) s t) ∧
        (decodeWord w = .unknownOpcode w → SameRegsBut [] s t)) ∧
    ∀ (i : Instr) (s t : State), exec i s = .next t →
      ((∃ x y, i = .addReg x y ∨ i = .subReg x y ∨ i = .subnReg x y) ∨ ∃ x, i = .shr x) →
      (t.readV 15).toNat ≤ 1

/-- No step writes the index register, a timer, memory or the configuration: the stack is not in memory, no instruction
stores, and only the host changes the timers (10_state.md sections 3 to 5, 20_memory.md section 7). -/
def Obligations.StepNeverWritesMemoryTimersOrConfig : Prop :=
  ∀ s t : State, step s = .next t →
    t.I = s.I ∧ t.DT = s.DT ∧ t.ST = s.ST ∧ t.memory = s.memory ∧ t.config = s.config

/-- Only `CALL` writes a stack slot, the one at `sp`; only `CALL` raises `sp` and only `RET` lowers it, by one (10_state.md
section 3; that a popped slot keeps its value is the spec's decision D10). -/
def Obligations.OnlyCallAndRetTouchTheStack : Prop :=
  ∀ (s t : State) (w : Word), s.fetch = some w → step s = .next t →
    (w.toNat / 4096 = 2 → t.sp.val = s.sp.val + 1 ∧ ∀ j : Fin 16, j.val ≠ s.sp.val → t.stack[j.val] = s.stack[j.val]) ∧
    (w = 0x00EE → t.sp.val = s.sp.val - 1 ∧ t.stack = s.stack) ∧
    (w.toNat / 4096 ≠ 2 → w ≠ 0x00EE → t.sp = s.sp ∧ t.stack = s.stack)

/-- `pc` after every step, whatever its outcome, is what the table of 10_state.md section 2 gives (it rests on the spec's
decisions D3 for a fetch out of range, D4 for the wrap and D6 for `RET` on an empty stack). -/
def Obligations.PcChangesAsTheTableSays : Prop :=
  (∀ s : State, s.fetch = none → (stepReport s).state.pc = s.pc) ∧
    ∀ (s : State) (w : Word), s.fetch = some w → (stepReport s).state.pc.toNat = pcTable s (decodeWord w)

/-- Until a jump, call or return changes it, `pc` keeps its parity (the inference of 10_state.md section 2). -/
def Obligations.PcKeepsItsParity : Prop :=
  ∀ (s t : State) (w : Word), s.fetch = some w → step s = .next t → w ≠ 0x00EE → w.toNat / 4096 ≠ 1 →
    w.toNat / 4096 ≠ 2 → t.pc.toNat % 2 = s.pc.toNat % 2

/-- Call and return are symmetric across any steps between them that never pop the call's own entry: the `RET` that pops
it completes, lands two past the `CALL`, and restores `sp`. What stands between is steps only, with no transaction of the
host among them (log entry 8). (40_control.md, general properties, and conflict C1; the wrap of the sum is the spec's
decision D4.) -/
def Obligations.ReturnLandsAfterItsCall : Prop :=
  ∀ (nnn : Addr) (k : Nat) (s t u : State), exec (.call nnn) s = .next t → RunsAbove (s.sp.val + 1) k t u →
    u.sp.val = s.sp.val + 1 →
    ∃ v, exec .ret u = .next v ∧ v.pc.toNat = (s.pc.toNat + 2) % 65536 ∧ v.sp = s.sp

/-- Every step, from every state, keeps the return addresses that stay on the stack: a slot below `sp` before the step and
below `sp` after it holds what it held (10_state.md section 3; the step's share in the call and return symmetry of
40_control.md, general properties). -/
def Obligations.StepKeepsOccupiedReturnAddresses : Prop :=
  ∀ (s t : State) (n : Fin 16) (a : Word), n.val < s.sp.val → s.stack[n.val] = a → step s = .next t →
    n.val < t.sp.val → t.stack[n.val] = a

/-- No step reads the index register, a timer, or the events emitted so far: from states that differ only there the
steps do the same (10_state.md sections 4 and 6, 60_exceptions.md section 5; the field `events` is the model's, log entry 2). -/
def Obligations.StepIgnoresIndexTimersAndEvents : Prop :=
  ∀ (s : State) (i : Word) (d e : Byte) (es : List Event),
    SameStepBut s { s with I := i, DT := d, ST := e, events := es }

/-- A step depends on memory only through the two bytes it fetches: from states whose memories agree at `pc` and
`pc + 1` the steps do the same (20_memory.md sections 1, 2 and 5). -/
def Obligations.StepReadsOnlyTheFetchedBytes : Prop :=
  ∀ (s : State) (m : Memory), Memory.readByte m s.pc.toNat = Memory.readByte s.memory s.pc.toNat →
    Memory.readByte m (s.pc.toNat + 1) = Memory.readByte s.memory (s.pc.toNat + 1) →
    SameStepBut s { s with memory := m }

/-- Every step keeps the invariant: legal parameters, memory in canonical form, and within `MEMORY_SIZE` (10_state.md
section 5; the canonical form is how the model holds memory). -/
def Obligations.StepKeepsTheInvariant : Prop :=
  ∀ s t : State, StateInv s → step s = .next t → StateInv t

/-- The state after reset meets the invariant. -/
def Obligations.ResetMeetsTheInvariant : Prop := StateInv State.reset

/-- Every constructed state meets the invariant, and every sequence of the host's transactions keeps it, loads and
memory writes among them (60_exceptions.md section 6). -/
def Obligations.TransactionsKeepTheInvariant : Prop :=
  (∀ (m o : Nat) (p : RetEmptyPolicy) (s : State), construct m o p = some s → StateInv s) ∧
    ∀ (ts : List Transaction) (s : State), StateInv s → StateInv (transactAll s ts)

/-! ## Construction, reset, load and the host -/

/-- R31: construction and `reset` leave the reset values, whatever the state before `reset`, and the parameters as they
were. -/
def Obligations.ResetLeavesTheResetValues : Prop :=
  (∀ s : State, s.config.Legal → ResetValues s.doReset ∧ s.doReset.config = s.config) ∧
    (∀ (m o : Nat) (p : RetEmptyPolicy) (t : State), construct m o p = some t →
      ResetValues t ∧ t.config.memorySize = m ∧ t.config.loadOffset = o ∧ t.config.retEmptyPolicy = p) ∧
    ResetValues State.reset

/-- A state is constructed exactly for legal parameters (00_scope.md section 4; the ranges are the spec's decision D2). -/
def Obligations.ConstructionAcceptsExactlyLegalParameters : Prop :=
  ∀ (m o : Nat) (p : RetEmptyPolicy),
    (∃ t, construct m o p = some t) ↔ (o ≤ m ∧ m ≤ 65536 ∧ o ≤ 65535)

/-- `reset` takes every state that any sequence of transactions reaches back to the constructed state, so a second
`reset` changes nothing (the inference of 70_reset_and_hazards.md section 1; that the field `events` starts again is the
model's choice, log entry 2). -/
def Obligations.ResetReturnsToTheConstructedState : Prop :=
  ∀ (m o : Nat) (p : RetEmptyPolicy) (t : State) (ts : List Transaction), construct m o p = some t →
    (transactAll t ts).doReset = t ∧ (transactAll t ts).doReset.doReset = t

/-- R100: an image that is too long fails and changes nothing; any other is copied to `LOAD_OFFSET` after a full
reset, and every byte outside it is 0. -/
def Obligations.LoadProgramChecksResetsAndCopies : Prop :=
  ∀ (s : State) (bytes : List Byte), s.config.Legal →
    (bytes.length > s.config.memorySize - s.config.loadOffset →
      s.loadProgram bytes = .failed .programTooLarge ∧ (transact s (.loadProgram bytes)).state = s) ∧
    (bytes.length ≤ s.config.memorySize - s.config.loadOffset →
      ∃ t, s.loadProgram bytes = .loaded t ∧ (transact s (.loadProgram bytes)).state = t ∧
        (∀ (k : Nat) (b : Byte), bytes[k]? = some b → Memory.readByte t.memory (s.config.loadOffset + k) = b) ∧
        (∀ a : Nat, a < s.config.loadOffset ∨ s.config.loadOffset + bytes.length ≤ a →
          Memory.readByte t.memory a = 0) ∧
        ResetValues { t with memory := [] } ∧ t.config = s.config)

/-- R102: after construction, `reset` or a successful load, `pc` is `LOAD_OFFSET`, and the first step fetches the word
at `memory[LOAD_OFFSET]` and `memory[LOAD_OFFSET + 1]`, the first two bytes of the image where one is loaded. -/
def Obligations.FirstFetchIsAtTheLoadOffset : Prop :=
  (∀ (m o : Nat) (p : RetEmptyPolicy) (t : State), construct m o p = some t →
      t.pc.toNat = o ∧ (o + 1 < m → t.fetch = some 0x0000)) ∧
    (∀ s : State, s.config.Legal → s.doReset.pc.toNat = s.config.loadOffset ∧
      (s.config.loadOffset + 1 < s.config.memorySize → s.doReset.fetch = some 0x0000)) ∧
    ∀ (s t : State) (bytes : List Byte), s.config.Legal → s.loadProgram bytes = .loaded t →
      t.pc.toNat = s.config.loadOffset ∧
      (∀ (b0 b1 : Byte) (rest : List Byte), bytes = b0 :: b1 :: rest →
        ∃ w, t.fetch = some w ∧ w.toNat = b0.toNat * 256 + b1.toNat) ∧
      (s.config.loadOffset + 1 < s.config.memorySize →
        ∃ w, t.fetch = some w ∧ w.toNat = (Memory.readByte t.memory s.config.loadOffset).toNat * 256 +
          (Memory.readByte t.memory (s.config.loadOffset + 1)).toNat)

/-- A host write of memory changes one byte and nothing else, and the next fetch sees it; a write of a timer changes
that timer and nothing else (10_state.md section 6, 20_memory.md section 7: the spec's decision D13; that a write outside
memory changes nothing is the model's choice, log entry 4). -/
def Obligations.HostWritesChangeOnlyTheirTarget : Prop :=
  (∀ (s : State) (a : Nat) (b : Byte), Memory.wf s.memory = true → a < s.config.memorySize →
      ∃ m : Memory, (transact s (.writeMemory a b)).state = { s with memory := m } ∧ Memory.readByte m a = b ∧
        (∀ a' : Nat, a' ≠ a → Memory.readByte m a' = Memory.readByte s.memory a') ∧
        (a = s.pc.toNat → ∀ w, s.fetch = some w → ∃ v, State.fetch { s with memory := m } = some v ∧
          v.toNat = b.toNat * 256 + w.toNat % 256)) ∧
    (∀ (s : State) (a : Nat) (b : Byte), s.config.memorySize ≤ a →
      transact s (.writeMemory a b) = { state := s, reply := .noSuchAddress, event := none }) ∧
    ∀ (s : State) (b : Byte),
      (transact s (.writeDT b)).state = { s with DT := b } ∧ (transact s (.writeST b)).state = { s with ST := b }

/-! ## Runs -/

/-- A self-jump is a fixed point: every number of steps completes and leaves the state as it is, and the run counts as
ended (70_reset_and_hazards.md section 5, the spec's decision D21). -/
def Obligations.SelfJumpIsAFixedPoint : Prop :=
  ∀ (s : State) (k : Nat), SelfJump s → core.run k s = .next s ∧ RunEnded s

/-- A `RET` held on an empty stack hangs: every number of steps completes and leaves the state as it is, and the run
has not ended (the inference of 70_reset_and_hazards.md section 5). -/
def Obligations.HeldReturnHangsForever : Prop :=
  ∀ (s : State) (k : Nat), HeldReturn s → core.run k s = .next s ∧ ¬ RunEnded s

/-- From any state whose memory is all zero, steps are `SYS`: each advances `pc` by 2 and changes nothing else, until
the fetch is out of range (the inference of 70_reset_and_hazards.md section 2). `pc` is kept below the wrap at 65536, past
which a memory of 65536 bytes is fetched from 0 again (the spec's decision D4). -/
def Obligations.ZeroMemoryOnlyAdvancesPcUntilTheEnd : Prop :=
  ∀ (s : State) (k : Nat), s.config.Legal → (∀ a, Memory.readByte s.memory a = 0) →
    s.pc.toNat + 2 * k < 65536 →
    (s.pc.toNat + 2 * k ≤ s.config.memorySize →
      core.run k s = .next { s with pc := BitVec.ofNat 16 (s.pc.toNat + 2 * k) }) ∧
    (s.pc.toNat + 2 * k ≤ s.config.memorySize → s.config.memorySize ≤ s.pc.toNat + 2 * k + 1 →
      core.run (k + 1) s = .fault .pcOutOfRange)
end

