-- ==== Sys2Proof/Laws/Decode.lean ====
section
/-! SUPPORT. A word as its four nibbles (spec R8), its fields, and bytes and words. -/

namespace Sys2Proof

@[simp] theorem regOfBits_bitsOfReg (r : Reg) : regOfBits (bitsOfReg r) = r := by
  have := r.isLt
  apply Fin.ext
  simp only [regOfBits, bitsOfReg, BitVec.toNat_ofNat]
  omega

@[simp] theorem bitsOfReg_regOfBits (b : BitVec 4) : bitsOfReg (regOfBits b) = b := by
  simp [regOfBits, bitsOfReg]

/-- Two bit strings side by side, as an integer. -/
theorem append_toNat {v w : Nat} (a : BitVec v) (b : BitVec w) : (a ++ b).toNat = a.toNat * 2 ^ w + b.toNat := by
  rw [BitVec.toNat_append, ← Nat.shiftLeft_add_eq_or_of_lt b.isLt, Nat.shiftLeft_eq]

/-- A word from its nibbles, nibble 0 first (R8). -/
def nibbles (op x y sub : BitVec 4) : Word := op ++ x ++ y ++ sub

theorem nibbles_toNat (op x y sub : BitVec 4) :
    (nibbles op x y sub).toNat = op.toNat * 4096 + x.toNat * 256 + y.toNat * 16 + sub.toNat := by
  unfold nibbles
  rw [append_toNat, append_toNat, append_toNat]
  omega

/-- Every word is its nibbles. -/
theorem word_eq_nibbles (w : Word) : ∃ op x y sub, w = nibbles op x y sub := by
  refine ⟨w.extractLsb' 12 4, w.extractLsb' 8 4, w.extractLsb' 4 4, w.extractLsb' 0 4, ?_⟩
  apply BitVec.eq_of_toNat_eq
  have := w.isLt
  rw [nibbles_toNat]
  simp only [BitVec.extractLsb'_toNat, Nat.shiftRight_eq_div_pow]
  omega

/-- Masking goes nibble by nibble. -/
theorem nibbles_and (op x y sub a b c d : BitVec 4) :
    nibbles op x y sub &&& nibbles a b c d = nibbles (op &&& a) (x &&& b) (y &&& c) (sub &&& d) := by
  unfold nibbles
  rw [BitVec.and_append, BitVec.and_append, BitVec.and_append]

/-- Words are equal exactly where their nibbles are. -/
theorem nibbles_inj {op x y sub op' x' y' sub' : BitVec 4} :
    nibbles op x y sub = nibbles op' x' y' sub' ↔ op = op' ∧ x = x' ∧ y = y' ∧ sub = sub' := by
  constructor
  · intro h
    have h1 := congrArg BitVec.toNat h
    rw [nibbles_toNat, nibbles_toNat] at h1
    refine ⟨?_, ?_, ?_, ?_⟩ <;> (apply BitVec.eq_of_toNat_eq; omega)
  · rintro ⟨rfl, rfl, rfl, rfl⟩
    rfl

/-- The mask `0xF000` keeps nibble 0. -/
theorem nibbles_mask_op (op x y sub : BitVec 4) : nibbles op x y sub &&& 0xF000 = nibbles op 0 0 0 := by
  show _ &&& nibbles 0xF 0 0 0 = _
  rw [nibbles_and, nibbles_inj]
  decide +revert

/-- The mask `0xF00F` keeps nibbles 0 and 3. -/
theorem nibbles_mask_op_sub (op x y sub : BitVec 4) : nibbles op x y sub &&& 0xF00F = nibbles op 0 0 sub := by
  show _ &&& nibbles 0xF 0 0 0xF = _
  rw [nibbles_and, nibbles_inj]
  refine ⟨?_, ?_, ?_, ?_⟩
  · decide +revert
  · decide +revert
  · decide +revert
  · decide +revert

/-- The mask `0xFFFF` keeps every bit. -/
theorem word_mask_all (w : Word) : w &&& 0xFFFF = w := BitVec.and_allOnes

theorem fieldOp_nibbles (op x y sub : BitVec 4) : fieldOp (nibbles op x y sub) = op := by
  apply BitVec.eq_of_toNat_eq
  simp only [fieldOp, BitVec.extractLsb'_toNat, nibbles_toNat, Nat.shiftRight_eq_div_pow]
  omega

theorem fieldX_nibbles (op x y sub : BitVec 4) : fieldX (nibbles op x y sub) = regOfBits x := by
  apply Fin.ext
  simp only [fieldX, regOfBits, BitVec.extractLsb'_toNat, nibbles_toNat, Nat.shiftRight_eq_div_pow]
  omega

theorem fieldY_nibbles (op x y sub : BitVec 4) : fieldY (nibbles op x y sub) = regOfBits y := by
  apply Fin.ext
  simp only [fieldY, regOfBits, BitVec.extractLsb'_toNat, nibbles_toNat, Nat.shiftRight_eq_div_pow]
  omega

theorem fieldSub_nibbles (op x y sub : BitVec 4) : fieldSub (nibbles op x y sub) = sub := by
  apply BitVec.eq_of_toNat_eq
  simp only [fieldSub, BitVec.extractLsb'_toNat, nibbles_toNat, Nat.shiftRight_eq_div_pow]
  omega

theorem fieldKK_nibbles (op x y sub : BitVec 4) : fieldKK (nibbles op x y sub) = y ++ sub := by
  apply BitVec.eq_of_toNat_eq
  rw [append_toNat]
  simp only [fieldKK, BitVec.extractLsb'_toNat, nibbles_toNat, Nat.shiftRight_eq_div_pow]
  omega

theorem fieldNNN_nibbles (op x y sub : BitVec 4) : fieldNNN (nibbles op x y sub) = x ++ y ++ sub := by
  apply BitVec.eq_of_toNat_eq
  rw [append_toNat, append_toNat]
  simp only [fieldNNN, BitVec.extractLsb'_toNat, nibbles_toNat, Nat.shiftRight_eq_div_pow]
  omega

/-- The nibbles of a word of format XY. -/
theorem encodeXY_nibbles (op : BitVec 4) (x y : Reg) (sub : BitVec 4) :
    encodeXY op x y sub = nibbles op (bitsOfReg x) (bitsOfReg y) sub := rfl

/-- The nibbles of a word of format XKK. -/
theorem encodeXKK_nibbles (op : BitVec 4) (x : Reg) (kk : Byte) :
    encodeXKK op x kk = nibbles op (bitsOfReg x) (kk.extractLsb' 4 4) (kk.extractLsb' 0 4) := by
  apply BitVec.eq_of_toNat_eq
  have := kk.isLt
  unfold encodeXKK
  rw [nibbles_toNat, append_toNat, append_toNat]
  simp only [BitVec.extractLsb'_toNat, Nat.shiftRight_eq_div_pow]
  omega

/-- The nibbles of a word of format NNN. -/
theorem encodeNNN_nibbles (op : BitVec 4) (nnn : Addr) :
    encodeNNN op nnn = nibbles op (nnn.extractLsb' 8 4) (nnn.extractLsb' 4 4) (nnn.extractLsb' 0 4) := by
  apply BitVec.eq_of_toNat_eq
  have := nnn.isLt
  unfold encodeNNN
  rw [nibbles_toNat, append_toNat]
  simp only [BitVec.extractLsb'_toNat, Nat.shiftRight_eq_div_pow]
  omega

/-- A byte is its two nibbles. -/
theorem byte_nibbles (kk : Byte) : (kk.extractLsb' 4 4 ++ kk.extractLsb' 0 4 : Byte) = kk := by
  apply BitVec.eq_of_toNat_eq
  have := kk.isLt
  rw [append_toNat]
  simp only [BitVec.extractLsb'_toNat, Nat.shiftRight_eq_div_pow]
  omega

/-- An address is its three nibbles. -/
theorem addr_nibbles (a : Addr) : (a.extractLsb' 8 4 ++ a.extractLsb' 4 4 ++ a.extractLsb' 0 4 : Addr) = a := by
  apply BitVec.eq_of_toNat_eq
  have := a.isLt
  rw [append_toNat, append_toNat]
  simp only [BitVec.extractLsb'_toNat, Nat.shiftRight_eq_div_pow]
  omega

/-- A word from its bytes, as integers: big-endian (R35, R37). -/
theorem wordOfBytes_toNat (hi lo : Byte) : (wordOfBytes hi lo).toNat = hi.toNat * 256 + lo.toNat :=
  append_toNat hi lo

@[simp] theorem highByte_wordOfBytes (hi lo : Byte) : highByte (wordOfBytes hi lo) = hi := by
  apply BitVec.eq_of_toNat_eq
  simp only [highByte, BitVec.extractLsb'_toNat, wordOfBytes_toNat, Nat.shiftRight_eq_div_pow]
  omega

@[simp] theorem lowByte_wordOfBytes (hi lo : Byte) : lowByte (wordOfBytes hi lo) = lo := by
  apply BitVec.eq_of_toNat_eq
  simp only [lowByte, BitVec.extractLsb'_toNat, wordOfBytes_toNat, Nat.shiftRight_eq_div_pow]
  omega

@[simp] theorem wordOfBytes_bytes (w : Word) : wordOfBytes (highByte w) (lowByte w) = w := by
  apply BitVec.eq_of_toNat_eq
  have := w.isLt
  rw [wordOfBytes_toNat]
  simp only [highByte, lowByte, BitVec.extractLsb'_toNat, Nat.shiftRight_eq_div_pow]
  omega

end Sys2Proof
end

