-- ==== Sys2Proof/Laws/Memory.lean ====
section
/-! SUPPORT. The laws of memory: a read after a write, and that every operation keeps the canonical form. -/

namespace Sys2Proof.Machine

@[simp] theorem readByte_nil (a : Nat) : Memory.readByte [] a = 0#8 := rfl

@[simp] theorem wf_nil : Memory.wf [] = true := rfl

/-- What the canonical form of a non-empty list says. -/
theorem wf_cons (k : Nat) (c : Byte) (rest : Memory) :
    Memory.wf ((k, c) :: rest) = true ↔ c ≠ 0#8 ∧ (∀ d ∈ rest, k < d.1) ∧ Memory.wf rest = true := by
  simp [Memory.wf, Memory.unlisted, and_assoc]

/-- An address below every listed one reads as an unlisted address. -/
theorem readByte_of_lt (m : Memory) (a : Nat) (h : ∀ d ∈ m, a < d.1) : Memory.readByte m a = 0#8 := by
  induction m with
  | nil => rfl
  | cons d rest ih =>
    have hd : d.1 ≠ a := by have := h d (by simp); omega
    simp only [Memory.readByte, hd, if_false]
    exact ih fun e he => h e (by simp [he])

/-- A write lists no address but those listed before and the one written. -/
theorem mem_writeByte {m : Memory} {a : Nat} {b : Byte} {d : Host.Cell} (h : d ∈ Memory.writeByte m a b) :
    d.1 = a ∨ d ∈ m := by
  induction m with
  | nil => simp only [Memory.writeByte] at h; split at h <;> simp_all
  | cons e rest ih =>
    simp only [Memory.writeByte] at h
    split at h
    · split at h
      · exact .inr h
      · simp only [List.mem_cons] at h ⊢
        rcases h with rfl | h
        · exact .inl rfl
        · exact .inr h
    · split at h
      · split at h
        · exact .inr (by simp [h])
        · simp only [List.mem_cons] at h ⊢
          rcases h with rfl | h
          · exact .inl (by simp_all)
          · exact .inr (.inr h)
      · simp only [List.mem_cons] at h ⊢
        rcases h with rfl | h
        · exact .inr (.inl rfl)
        · exact (ih h).imp_right .inr

/-- A write keeps the canonical form. -/
theorem wf_writeByte {m : Memory} (a : Nat) (b : Byte) (h : Memory.wf m = true) :
    Memory.wf (Memory.writeByte m a b) = true := by
  induction m with
  | nil =>
    by_cases hb : b = 0#8
    · simp [Memory.writeByte, Memory.unlisted, hb]
    · simp [Memory.writeByte, Memory.unlisted, hb, wf_cons]
  | cons e rest ih =>
    obtain ⟨k, c⟩ := e
    obtain ⟨hc, hlt, hr⟩ := (wf_cons k c rest).1 h
    simp only [Memory.writeByte, Memory.unlisted]
    split
    · rename_i hak
      split
      · exact h
      · rename_i hb
        refine (wf_cons _ _ _).2 ⟨hb, ?_, h⟩
        intro d hd
        rcases List.mem_cons.1 hd with rfl | hd
        · exact hak
        · exact lt_trans hak (hlt d hd)
    · split
      · split
        · exact hr
        · rename_i hb
          exact (wf_cons _ _ _).2 ⟨hb, hlt, hr⟩
      · rename_i h1 h2
        refine (wf_cons _ _ _).2 ⟨hc, ?_, ih hr⟩
        intro d hd
        rcases mem_writeByte hd with h3 | h3
        · omega
        · exact hlt d h3

/-- A write below `n` keeps every listed address below `n`. -/
theorem below_writeByte {m : Memory} {n : Nat} (a : Nat) (b : Byte) (ha : a < n) (h : Memory.below n m = true) :
    Memory.below n (Memory.writeByte m a b) = true := by
  simp only [Memory.below, List.all_eq_true, decide_eq_true_eq] at h ⊢
  intro d hd
  rcases mem_writeByte hd with h1 | h1
  · omega
  · exact h d h1

/-- Reading after a write: the byte written at its own address, the old byte at every other. -/
theorem readByte_writeByte {m : Memory} (a a' : Nat) (b : Byte) (h : Memory.wf m = true) :
    Memory.readByte (Memory.writeByte m a b) a' = if a = a' then b else Memory.readByte m a' := by
  induction m with
  | nil =>
    by_cases hb : b = 0#8 <;> by_cases ha : a = a' <;>
      simp [Memory.writeByte, Memory.readByte, Memory.unlisted, hb, ha]
  | cons e rest ih =>
    obtain ⟨k, c⟩ := e
    obtain ⟨hc, hlt, hr⟩ := (wf_cons k c rest).1 h
    simp only [Memory.writeByte, Memory.unlisted]
    split
    · rename_i hak
      split
      · rename_i hb
        by_cases ha : a = a'
        · subst ha
          rw [if_pos rfl, hb]
          refine readByte_of_lt _ _ fun d hd => ?_
          rcases List.mem_cons.1 hd with rfl | hd
          · exact hak
          · exact lt_trans hak (hlt d hd)
        · rw [if_neg ha]
      · rfl
    · split
      · rename_i hak
        subst hak
        split
        · rename_i hb
          by_cases ha : a = a'
          · subst ha
            rw [if_pos rfl, hb]
            exact readByte_of_lt _ _ hlt
          · simp [Memory.readByte, ha]
        · by_cases ha : a = a' <;> simp [Memory.readByte, ha]
      · rename_i h1 h2
        by_cases hk : k = a'
        · subst hk
          simp [Memory.readByte, h2]
        · simp only [Memory.readByte, hk, if_false]
          exact ih hr

/-- Writing a sequence of bytes keeps the canonical form. -/
theorem wf_writeBytes {m : Memory} (a : Nat) (bs : List Byte) (h : Memory.wf m = true) :
    Memory.wf (Memory.writeBytes m a bs) = true := by
  induction bs generalizing m a with
  | nil => exact h
  | cons b bs ih => exact ih (a + 1) (wf_writeByte a b h)

/-- Writing a sequence of bytes that ends below `n` keeps every listed address below `n`. -/
theorem below_writeBytes {m : Memory} {n : Nat} (a : Nat) (bs : List Byte) (ha : a + bs.length ≤ n)
    (h : Memory.below n m = true) : Memory.below n (Memory.writeBytes m a bs) = true := by
  induction bs generalizing m a with
  | nil => exact h
  | cons b bs ih =>
    simp only [List.length_cons] at ha
    exact ih (a + 1) (by omega) (below_writeByte a b (by omega) h)

end Sys2Proof.Machine
end

