-- ==== Sys2Proof/Laws/State.lean ====
section
/-! SUPPORT. What each update of the state does to each field: one lemma per field per update. -/

namespace Sys2Proof.Machine

variable (s : State)

/-! ### `writeV` -/

@[simp] theorem writeV_V (x : Reg) (b : Byte) : (s.writeV x b).V = s.V.set x.val b := rfl
@[simp] theorem writeV_stack (x : Reg) (b : Byte) : (s.writeV x b).stack = s.stack := rfl
@[simp] theorem writeV_sp (x : Reg) (b : Byte) : (s.writeV x b).sp = s.sp := rfl
@[simp] theorem writeV_pc (x : Reg) (b : Byte) : (s.writeV x b).pc = s.pc := rfl
@[simp] theorem writeV_I (x : Reg) (b : Byte) : (s.writeV x b).I = s.I := rfl
@[simp] theorem writeV_DT (x : Reg) (b : Byte) : (s.writeV x b).DT = s.DT := rfl
@[simp] theorem writeV_ST (x : Reg) (b : Byte) : (s.writeV x b).ST = s.ST := rfl
@[simp] theorem writeV_memory (x : Reg) (b : Byte) : (s.writeV x b).memory = s.memory := rfl
@[simp] theorem writeV_config (x : Reg) (b : Byte) : (s.writeV x b).config = s.config := rfl
@[simp] theorem writeV_events (x : Reg) (b : Byte) : (s.writeV x b).events = s.events := rfl

/-! ### `setPc` -/

@[simp] theorem setPc_V (a : Word) : (s.setPc a).V = s.V := rfl
@[simp] theorem setPc_stack (a : Word) : (s.setPc a).stack = s.stack := rfl
@[simp] theorem setPc_sp (a : Word) : (s.setPc a).sp = s.sp := rfl
@[simp] theorem setPc_pc (a : Word) : (s.setPc a).pc = a := rfl
@[simp] theorem setPc_I (a : Word) : (s.setPc a).I = s.I := rfl
@[simp] theorem setPc_DT (a : Word) : (s.setPc a).DT = s.DT := rfl
@[simp] theorem setPc_ST (a : Word) : (s.setPc a).ST = s.ST := rfl
@[simp] theorem setPc_memory (a : Word) : (s.setPc a).memory = s.memory := rfl
@[simp] theorem setPc_config (a : Word) : (s.setPc a).config = s.config := rfl
@[simp] theorem setPc_events (a : Word) : (s.setPc a).events = s.events := rfl

/-! ### `advance` -/

@[simp] theorem advance_V (n : Nat) : (s.advance n).V = s.V := rfl
@[simp] theorem advance_stack (n : Nat) : (s.advance n).stack = s.stack := rfl
@[simp] theorem advance_sp (n : Nat) : (s.advance n).sp = s.sp := rfl
@[simp] theorem advance_pc (n : Nat) : (s.advance n).pc = s.pcPlus n := rfl
@[simp] theorem advance_I (n : Nat) : (s.advance n).I = s.I := rfl
@[simp] theorem advance_DT (n : Nat) : (s.advance n).DT = s.DT := rfl
@[simp] theorem advance_ST (n : Nat) : (s.advance n).ST = s.ST := rfl
@[simp] theorem advance_memory (n : Nat) : (s.advance n).memory = s.memory := rfl
@[simp] theorem advance_config (n : Nat) : (s.advance n).config = s.config := rfl
@[simp] theorem advance_events (n : Nat) : (s.advance n).events = s.events := rfl

/-! ### `emit` -/

@[simp] theorem emit_V (k : EventKind) (w : Word) : (s.emit k w).V = s.V := rfl
@[simp] theorem emit_stack (k : EventKind) (w : Word) : (s.emit k w).stack = s.stack := rfl
@[simp] theorem emit_sp (k : EventKind) (w : Word) : (s.emit k w).sp = s.sp := rfl
@[simp] theorem emit_pc (k : EventKind) (w : Word) : (s.emit k w).pc = s.pc := rfl
@[simp] theorem emit_I (k : EventKind) (w : Word) : (s.emit k w).I = s.I := rfl
@[simp] theorem emit_DT (k : EventKind) (w : Word) : (s.emit k w).DT = s.DT := rfl
@[simp] theorem emit_ST (k : EventKind) (w : Word) : (s.emit k w).ST = s.ST := rfl
@[simp] theorem emit_memory (k : EventKind) (w : Word) : (s.emit k w).memory = s.memory := rfl
@[simp] theorem emit_config (k : EventKind) (w : Word) : (s.emit k w).config = s.config := rfl
@[simp] theorem emit_events (k : EventKind) (w : Word) : (s.emit k w).events = s.events ++ [{ kind := k, opcode := w, address := s.pc }] := rfl

/-! ### `skipUnknown` -/

@[simp] theorem skipUnknown_V (w : Word) : (s.skipUnknown w).V = s.V := rfl
@[simp] theorem skipUnknown_stack (w : Word) : (s.skipUnknown w).stack = s.stack := rfl
@[simp] theorem skipUnknown_sp (w : Word) : (s.skipUnknown w).sp = s.sp := rfl
@[simp] theorem skipUnknown_pc (w : Word) : (s.skipUnknown w).pc = s.pcPlus 2 := rfl
@[simp] theorem skipUnknown_I (w : Word) : (s.skipUnknown w).I = s.I := rfl
@[simp] theorem skipUnknown_DT (w : Word) : (s.skipUnknown w).DT = s.DT := rfl
@[simp] theorem skipUnknown_ST (w : Word) : (s.skipUnknown w).ST = s.ST := rfl
@[simp] theorem skipUnknown_memory (w : Word) : (s.skipUnknown w).memory = s.memory := rfl
@[simp] theorem skipUnknown_config (w : Word) : (s.skipUnknown w).config = s.config := rfl
@[simp] theorem skipUnknown_events (w : Word) : (s.skipUnknown w).events = s.events ++ [{ kind := .unknownOpcode, opcode := w, address := s.pc }] := rfl

/-! ### `skipIf` -/

@[simp] theorem skipIf_V (c : Bool) : (s.skipIf c).V = s.V := by cases c <;> rfl
@[simp] theorem skipIf_stack (c : Bool) : (s.skipIf c).stack = s.stack := by cases c <;> rfl
@[simp] theorem skipIf_sp (c : Bool) : (s.skipIf c).sp = s.sp := by cases c <;> rfl
@[simp] theorem skipIf_pc (c : Bool) : (s.skipIf c).pc = s.pcPlus (if c then 4 else 2) := by cases c <;> rfl
@[simp] theorem skipIf_I (c : Bool) : (s.skipIf c).I = s.I := by cases c <;> rfl
@[simp] theorem skipIf_DT (c : Bool) : (s.skipIf c).DT = s.DT := by cases c <;> rfl
@[simp] theorem skipIf_ST (c : Bool) : (s.skipIf c).ST = s.ST := by cases c <;> rfl
@[simp] theorem skipIf_memory (c : Bool) : (s.skipIf c).memory = s.memory := by cases c <;> rfl
@[simp] theorem skipIf_config (c : Bool) : (s.skipIf c).config = s.config := by cases c <;> rfl
@[simp] theorem skipIf_events (c : Bool) : (s.skipIf c).events = s.events := by cases c <;> rfl

/-! ### `commit` -/

@[simp] theorem commit_V (x : Reg) (b : Byte) : (s.commit x b).V = s.V.set x.val b := rfl
@[simp] theorem commit_stack (x : Reg) (b : Byte) : (s.commit x b).stack = s.stack := rfl
@[simp] theorem commit_sp (x : Reg) (b : Byte) : (s.commit x b).sp = s.sp := rfl
@[simp] theorem commit_pc (x : Reg) (b : Byte) : (s.commit x b).pc = s.pcPlus 2 := rfl
@[simp] theorem commit_I (x : Reg) (b : Byte) : (s.commit x b).I = s.I := rfl
@[simp] theorem commit_DT (x : Reg) (b : Byte) : (s.commit x b).DT = s.DT := rfl
@[simp] theorem commit_ST (x : Reg) (b : Byte) : (s.commit x b).ST = s.ST := rfl
@[simp] theorem commit_memory (x : Reg) (b : Byte) : (s.commit x b).memory = s.memory := rfl
@[simp] theorem commit_config (x : Reg) (b : Byte) : (s.commit x b).config = s.config := rfl
@[simp] theorem commit_events (x : Reg) (b : Byte) : (s.commit x b).events = s.events := rfl

/-! ### `commitFlag` -/

@[simp] theorem commitFlag_V (x : Reg) (b f : Byte) : (s.commitFlag x b f).V = (s.V.set x.val b).set vf.val f := rfl
@[simp] theorem commitFlag_stack (x : Reg) (b f : Byte) : (s.commitFlag x b f).stack = s.stack := rfl
@[simp] theorem commitFlag_sp (x : Reg) (b f : Byte) : (s.commitFlag x b f).sp = s.sp := rfl
@[simp] theorem commitFlag_pc (x : Reg) (b f : Byte) : (s.commitFlag x b f).pc = s.pcPlus 2 := rfl
@[simp] theorem commitFlag_I (x : Reg) (b f : Byte) : (s.commitFlag x b f).I = s.I := rfl
@[simp] theorem commitFlag_DT (x : Reg) (b f : Byte) : (s.commitFlag x b f).DT = s.DT := rfl
@[simp] theorem commitFlag_ST (x : Reg) (b f : Byte) : (s.commitFlag x b f).ST = s.ST := rfl
@[simp] theorem commitFlag_memory (x : Reg) (b f : Byte) : (s.commitFlag x b f).memory = s.memory := rfl
@[simp] theorem commitFlag_config (x : Reg) (b f : Byte) : (s.commitFlag x b f).config = s.config := rfl
@[simp] theorem commitFlag_events (x : Reg) (b f : Byte) : (s.commitFlag x b f).events = s.events := rfl

/-! ### Reading a register after each update -/

/-- Reading a register after writing one: the byte written at its own number, and the old value at every other. -/
theorem readV_writeV (x y : Reg) (b : Byte) : (s.writeV x b).readV y = if x = y then b else s.readV y := by
  simp [State.readV, State.writeV, Vector.getElem_set, Fin.ext_iff]

@[simp] theorem readV_writeV_same (x : Reg) (b : Byte) : (s.writeV x b).readV x = b := by simp [readV_writeV]
@[simp] theorem readV_setPc (a : Word) (y : Reg) : (s.setPc a).readV y = s.readV y := rfl
@[simp] theorem readV_advance (n : Nat) (y : Reg) : (s.advance n).readV y = s.readV y := rfl
@[simp] theorem readV_emit (k : EventKind) (w : Word) (y : Reg) : (s.emit k w).readV y = s.readV y := rfl
@[simp] theorem readV_skipUnknown (w : Word) (y : Reg) : (s.skipUnknown w).readV y = s.readV y := rfl
@[simp] theorem readV_skipIf (c : Bool) (y : Reg) : (s.skipIf c).readV y = s.readV y := by cases c <;> rfl

/-- Registers after a commit with no flag. -/
theorem readV_commit (x y : Reg) (b : Byte) : (s.commit x b).readV y = if x = y then b else s.readV y :=
  readV_writeV s x y b

/-- Registers after a commit with a flag: `VF` holds the flag, whatever `x` is (R73). -/
theorem readV_commitFlag (x y : Reg) (b f : Byte) :
    (s.commitFlag x b f).readV y = if vf = y then f else if x = y then b else s.readV y := by
  show ((s.writeV x b).writeV vf f).readV y = _
  rw [readV_writeV, readV_writeV]

/-- `pc + n` as an integer (R19). -/
@[simp] theorem pcPlus_toNat (n : Nat) : (s.pcPlus n).toNat = (s.pc.toNat + n) % 65536 := by
  simp [State.pcPlus]

end Sys2Proof.Machine
end

