-- ==== Sys2Proof/Laws/Ops.lean ====
section
/-! SUPPORT. What each shared operation can do, said once. -/

namespace Sys2Proof.Machine

/-- The fetch succeeds exactly in range, and then gives the two bytes at `pc` (R35, R36). -/
theorem fetch_eq_some {s : State} {w : Word} :
    s.fetch = some w ↔ s.pc.toNat + 1 < s.config.memorySize ∧
      w = wordOfBytes (Memory.readByte s.memory s.pc.toNat) (Memory.readByte s.memory (s.pc.toNat + 1)) := by
  simp [State.fetch, State.fetchInRange, eq_comm]

/-- The fetch fails exactly out of range (R36). -/
theorem fetch_eq_none {s : State} : s.fetch = none ↔ s.config.memorySize ≤ s.pc.toNat + 1 := by
  simp [State.fetch, State.fetchInRange]

/-- A push fails exactly on a full stack (R66). -/
theorem push_eq_none {s : State} {a : Word} : s.push a = none ↔ s.sp.val = 16 := by
  have := s.sp.isLt
  simp only [State.push]
  split <;> simp <;> omega

/-- A push on a stack that is not full (R22). -/
theorem push_of_lt {s : State} (a : Word) (h : s.sp.val < 16) :
    s.push a = some { s with stack := s.stack.set s.sp.val a h, sp := ⟨s.sp.val + 1, Nat.succ_lt_succ h⟩ } := by
  simp [State.push, h]

/-- A pop fails exactly on an empty stack (R64). -/
theorem pop_eq_none {s : State} : s.pop = none ↔ s.sp.val = 0 := by
  obtain ⟨V, stack, ⟨n, hn⟩, pc, I, DT, ST, memory, config, events⟩ := s
  cases n <;> simp [State.pop]

/-- A pop from a stack with `n + 1` occupied slots (R22, R23). -/
theorem pop_of_sp {s : State} {n : Nat} (h : s.sp.val = n + 1) :
    s.pop = some (s.stack[n]'(by have := s.sp.isLt; omega),
      { s with sp := ⟨n, by have := s.sp.isLt; omega⟩ }) := by
  obtain ⟨V, stack, ⟨m, hm⟩, pc, I, DT, ST, memory, config, events⟩ := s
  simp only at h
  subst h
  rfl

/-- `RET` on an empty stack under `HOLD` (R64). -/
theorem retOnEmpty_hold {s : State} (h : s.config.retEmptyPolicy = .hold) : retOnEmpty s = s := by
  simp [retOnEmpty, h]

/-- `RET` on an empty stack under `REPORT` (R64). -/
theorem retOnEmpty_report {s : State} (h : s.config.retEmptyPolicy = .report) :
    retOnEmpty s = (s.emit .emptyStackReturn 0x00EE).advance 2 := by
  simp [retOnEmpty, h]

/-- A flag is exactly 0 or 1 (R15). -/
theorem flagOf_toNat (b : Bool) : (flagOf b).toNat = if b then 1 else 0 := by cases b <;> rfl

/-- The bit shifted out is `a mod 2` (R80). -/
theorem shiftOutFlag_toNat (a : Byte) : (shiftOutFlag a).toNat = a.toNat % 2 := by
  simp [shiftOutFlag, Nat.and_one_is_mod]

end Sys2Proof.Machine
end

