-- ==== Sys2Proof/Laws/PerInstr.lean ====
section
/-! SUPPORT. Facts about every instruction as syntax, one lemma per constructor. -/

namespace Sys2Proof.Laws.EncodeMatches

/-- The word of an instruction matches the instruction's own rule (spec R52, R53). -/
def Statement (i : Instr) : Prop := encode i &&& ruleMask i = rulePattern i

theorem ret : Statement .ret := rfl

theorem sys (nnn : Addr) : Statement (.sys nnn) := by
  show encodeNNN _ _ &&& _ = _
  rw [encodeNNN_nibbles]
  exact nibbles_mask_op _ _ _ _

theorem jp (nnn : Addr) : Statement (.jp nnn) := by
  show encodeNNN _ _ &&& _ = _
  rw [encodeNNN_nibbles]
  exact nibbles_mask_op _ _ _ _

theorem call (nnn : Addr) : Statement (.call nnn) := by
  show encodeNNN _ _ &&& _ = _
  rw [encodeNNN_nibbles]
  exact nibbles_mask_op _ _ _ _

theorem seByte (x : Reg) (kk : Byte) : Statement (.seByte x kk) := by
  show encodeXKK _ _ _ &&& _ = _
  rw [encodeXKK_nibbles]
  exact nibbles_mask_op _ _ _ _

theorem sneByte (x : Reg) (kk : Byte) : Statement (.sneByte x kk) := by
  show encodeXKK _ _ _ &&& _ = _
  rw [encodeXKK_nibbles]
  exact nibbles_mask_op _ _ _ _

theorem seReg (x y : Reg) : Statement (.seReg x y) := nibbles_mask_op_sub _ _ _ _

theorem ldByte (x : Reg) (kk : Byte) : Statement (.ldByte x kk) := by
  show encodeXKK _ _ _ &&& _ = _
  rw [encodeXKK_nibbles]
  exact nibbles_mask_op _ _ _ _

theorem addByte (x : Reg) (kk : Byte) : Statement (.addByte x kk) := by
  show encodeXKK _ _ _ &&& _ = _
  rw [encodeXKK_nibbles]
  exact nibbles_mask_op _ _ _ _

theorem ldReg (x y : Reg) : Statement (.ldReg x y) := nibbles_mask_op_sub _ _ _ _

theorem orReg (x y : Reg) : Statement (.orReg x y) := nibbles_mask_op_sub _ _ _ _

theorem andReg (x y : Reg) : Statement (.andReg x y) := nibbles_mask_op_sub _ _ _ _

theorem xorReg (x y : Reg) : Statement (.xorReg x y) := nibbles_mask_op_sub _ _ _ _

theorem addReg (x y : Reg) : Statement (.addReg x y) := nibbles_mask_op_sub _ _ _ _

theorem subReg (x y : Reg) : Statement (.subReg x y) := nibbles_mask_op_sub _ _ _ _

theorem shr (x : Reg) : Statement (.shr x) := nibbles_mask_op_sub _ _ _ _

theorem subnReg (x y : Reg) : Statement (.subnReg x y) := nibbles_mask_op_sub _ _ _ _

end Sys2Proof.Laws.EncodeMatches
end

