-- ==== Sys2Proof/Laws/Step.lean ====
section
/-! SUPPORT. What a handler and a step can do, said once. -/

namespace Sys2Proof.Machine

/-- A word that is rejected is rejected as itself. -/
theorem eq_of_unknownOpcode {w u : Word} (h : decodeWord w = .unknownOpcode u) : u = w := by
  unfold decodeWord at h
  split at h
  · simp at h
  · exact (Decoded.unknownOpcode.inj h).symm

/-- A step whose fetched word decodes to `i` is the handler of `i` (R83). -/
theorem step_of_instr {s : State} {w : Word} {i : Instr} (hf : s.fetch = some w) (hd : decodeWord w = .instr i) :
    step s = exec i s := by
  simp only [step, hf, hd]

/-- A step whose fetched word no rule matches is the unknown-opcode path (R57, R83). -/
theorem step_of_unknown {s : State} {w u : Word} (hf : s.fetch = some w) (hd : decodeWord w = .unknownOpcode u) :
    step s = .next (s.skipUnknown u) := by
  simp only [step, hf, hd]

/-- A step whose fetch fails is a fault (R36, R86). -/
theorem step_of_fetch_none {s : State} (h : s.fetch = none) : step s = .fault .pcOutOfRange := by
  simp only [step, h]

/-- `CALL` on a stack that is not full (R66). -/
theorem execCall_of_lt (nnn : Addr) {s : State} (h : s.sp.val < 16) :
    execCall nnn s = .next (State.setPc { s with
      stack := s.stack.set s.sp.val (s.pcPlus 2) h, sp := ⟨s.sp.val + 1, Nat.succ_lt_succ h⟩ } (targetOf nnn)) := by
  rw [execCall, push_of_lt _ h]

/-- `CALL` on a full stack (R66). -/
theorem execCall_full (nnn : Addr) {s : State} (h : s.sp.val = 16) : execCall nnn s = .fault .stackOverflow := by
  rw [execCall, push_eq_none.2 h]

/-- `RET` on an empty stack (R64). -/
theorem execRet_empty {s : State} (h : s.sp.val = 0) : execRet s = .next (retOnEmpty s) := by
  rw [execRet, pop_eq_none.2 h]

/-- `RET` on a stack with `n + 1` occupied slots (R64). -/
theorem execRet_of_sp {s : State} {n : Nat} (h : s.sp.val = n + 1) :
    execRet s = .next (State.setPc { s with sp := ⟨n, by have := s.sp.isLt; omega⟩ }
      (s.stack[n]'(by have := s.sp.isLt; omega))) := by
  rw [execRet, pop_of_sp h]

/-- A handler answers a next state, or it is `CALL` on a full stack. -/
theorem exec_cases (i : Instr) (s : State) :
    (∃ t, exec i s = .next t) ∨ (∃ nnn, i = .call nnn ∧ s.sp.val = 16 ∧ exec i s = .fault .stackOverflow) := by
  cases i with
  | ret =>
    rcases Nat.eq_zero_or_pos s.sp.val with h | h
    · exact .inl ⟨_, execRet_empty h⟩
    · exact .inl ⟨_, execRet_of_sp (n := s.sp.val - 1) (by omega)⟩
  | call nnn =>
    rcases Nat.lt_or_ge s.sp.val 16 with h | h
    · exact .inl ⟨_, execCall_of_lt nnn h⟩
    · have h16 : s.sp.val = 16 := by have := s.sp.isLt; omega
      exact .inr ⟨nnn, rfl, h16, execCall_full nnn h16⟩
  | _ => exact .inl ⟨_, rfl⟩

/-- A step that goes on fetched a word, and is the word's handler or the unknown-opcode path. -/
theorem step_next_cases {s t : State} (h : step s = .next t) :
    ∃ w, s.fetch = some w ∧
      ((∃ i, decodeWord w = .instr i ∧ exec i s = .next t) ∨
        (decodeWord w = .unknownOpcode w ∧ t = s.skipUnknown w)) := by
  cases hf : s.fetch with
  | none =>
    rw [step_of_fetch_none hf] at h
    cases h
  | some w =>
    refine ⟨w, rfl, ?_⟩
    cases hd : decodeWord w with
    | instr i =>
      rw [step_of_instr hf hd] at h
      exact .inl ⟨i, rfl, h⟩
    | unknownOpcode u =>
      rw [step_of_unknown hf hd] at h
      cases h
      rw [eq_of_unknownOpcode hd]
      exact .inr ⟨rfl, rfl⟩

/-- Writing one byte through the range check keeps the canonical form of memory. -/
theorem memWrite_wf {s t : State} {a : Nat} {b : Byte} (h : s.memWrite a b = some t)
    (hw : Memory.wf s.memory = true) : Memory.wf t.memory = true := by
  unfold State.memWrite at h
  split at h
  · cases h
    exact wf_writeByte a b hw
  · cases h

/-- Placing a word for the next fetch keeps the canonical form of memory. -/
theorem withFetchWord_wf {s : State} (nbits w : Nat) (hw : Memory.wf s.memory = true) :
    Memory.wf (s.withFetchWord nbits w).memory = true := by
  unfold State.withFetchWord
  split
  · exact wf_writeBytes _ _ hw
  · exact hw

end Sys2Proof.Machine
end

