-- ==== Sys2Proof/Laws/Run.lean ====
section
/-! SUPPORT. Several steps of the machine, one step at a time. -/

namespace Sys2Proof.Machine

/-- For any machine: a run whose first step goes on is the rest of the run from the next state. -/
theorem coreRun_of_next (M : Host.Core) (k : Nat) (s t : M.State) (h : M.step s = .next t) :
    M.run (k + 1) s = M.run k t := by
  simp only [Host.Core.run, h]

/-- For any machine: a run whose first step faults ends with that fault. -/
theorem coreRun_of_fault (M : Host.Core) (k : Nat) (s : M.State) (f : M.Fault) (h : M.step s = .fault f) :
    M.run (k + 1) s = .fault f := by
  simp only [Host.Core.run, h]

/-- A run of this machine whose first step goes on. -/
theorem run_succ_of_next {k : Nat} {s t : State} (h : step s = .next t) : core.run (k + 1) s = core.run k t :=
  coreRun_of_next core k s t h

/-- A run of this machine whose first step faults. -/
theorem run_succ_of_fault {k : Nat} {s : State} {f : Fault} (h : step s = .fault f) :
    core.run (k + 1) s = .fault f :=
  coreRun_of_fault core k s f h

end Sys2Proof.Machine
end

