-- ==== Sys2Proof/Tests/Slice0.lean ====
section
/-! SUPPORT. Tests of one step each. Expected values are the vectors of 95_test_vectors.md (V-*, W*) and the rules' own
examples; words are written out from the encodings of 30_encoding.md. Last, the witnesses of the statements' hypotheses. -/

namespace Sys2Proof.Tests

open Sys2Proof.Machine

/-- The reset state with `pc` and some registers set. -/
def start (pc : Word) (regs : List (Reg × Byte)) : State :=
  { regs.foldl (fun s p => s.writeV p.1 p.2) State.reset with pc := pc }

/-- The start with a memory of 65536 bytes. -/
def bigStart (pc : Word) (regs : List (Reg × Byte)) : State :=
  { start pc regs with config := { Config.standard with memorySize := 65536 } }

/-- The start with `sp` set and every stack slot holding `a`. -/
def stackStart (pc : Word) (sp : Fin 17) (a : Word) : State :=
  { start pc [] with sp := sp, stack := Vector.replicate 16 a }

/-- The start under `REPORT`. -/
def reportStart (pc : Word) : State :=
  { start pc [] with config := { Config.standard with retEmptyPolicy := .report } }

/-- `s` with the word placed where the next step fetches it. -/
def place (s : State) (w : Nat) : State := s.withFetchWord 16 w

/-- A part of the state after one step of `s` on the word, where the step goes on. -/
def after {α : Type} (s : State) (w : Nat) (f : State → α) : Option α :=
  match step (place s w) with
  | .next t => some (f t)
  | .fault _ => none
  | .refused _ => none

/-- The fault of one step, where it faults. -/
def faultOf (s : State) : Option Fault :=
  match step s with
  | .next _ => none
  | .fault r => some r
  | .refused _ => none

/-! ### Well-formedness -/

theorem test_wf_refuses_sys_0EE : (Instr.sys 0x0EE).wf = false := by decide
theorem test_wf_accepts_sys_0EF : (Instr.sys 0x0EF).wf = true := by decide

/-! ### Decode: a word for every constructor, bit by bit (R49), and the table of 95_test_vectors.md -/

theorem test_decode_ret : decodeWord 0b0000000011101110 = .instr .ret := by decide
theorem test_decode_sys : decodeWord 0b0000000100100011 = .instr (.sys 0x123) := by decide
theorem test_decode_jp : decodeWord 0b0001001101000101 = .instr (.jp 0x345) := by decide
theorem test_decode_call : decodeWord 0b0010111111111111 = .instr (.call 0xFFF) := by decide
theorem test_decode_seByte : decodeWord 0b0011001000010010 = .instr (.seByte 2 0x12) := by decide
theorem test_decode_sneByte : decodeWord 0b0100111100000001 = .instr (.sneByte 15 0x01) := by decide
theorem test_decode_seReg : decodeWord 0b0101000100100000 = .instr (.seReg 1 2) := by decide
theorem test_decode_ldByte : decodeWord 0b0110101000001010 = .instr (.ldByte 10 0x0A) := by decide
theorem test_decode_addByte : decodeWord 0b0111010110000000 = .instr (.addByte 5 0x80) := by decide
theorem test_decode_ldReg : decodeWord 0b1000001000000000 = .instr (.ldReg 2 0) := by decide
theorem test_decode_orReg : decodeWord 0b1000000100100001 = .instr (.orReg 1 2) := by decide
theorem test_decode_andReg : decodeWord 0b1000000100100010 = .instr (.andReg 1 2) := by decide
theorem test_decode_xorReg : decodeWord 0b1000000100100011 = .instr (.xorReg 1 2) := by decide
theorem test_decode_addReg : decodeWord 0b1000001101000100 = .instr (.addReg 3 4) := by decide
theorem test_decode_subReg : decodeWord 0b1000001101000101 = .instr (.subReg 3 4) := by decide
theorem test_decode_shr_any_y : decodeWord 0b1000001111110110 = .instr (.shr 3) := by decide
theorem test_decode_subnReg : decodeWord 0b1000111111110111 = .instr (.subnReg 15 15) := by decide

theorem test_decode_sys_words :
    decodeWord 0x0000 = .instr (.sys 0x000) ∧ decodeWord 0x00E0 = .instr (.sys 0x0E0) ∧
      decodeWord 0x00E1 = .instr (.sys 0x0E1) ∧ decodeWord 0x00EF = .instr (.sys 0x0EF) ∧
      decodeWord 0x0EEE = .instr (.sys 0xEEE) := by decide
theorem test_decode_unknown_words :
    decodeWord 0x5121 = .unknownOpcode 0x5121 ∧ decodeWord 0x8008 = .unknownOpcode 0x8008 ∧
      decodeWord 0x800E = .unknownOpcode 0x800E ∧ decodeWord 0x9000 = .unknownOpcode 0x9000 ∧
      decodeWord 0xA123 = .unknownOpcode 0xA123 ∧ decodeWord 0xFFFF = .unknownOpcode 0xFFFF := by decide

/-- The masks, patterns and formats of R52, in its order. -/
theorem test_rule_table :
    ruleTable.map (fun r => (r.mask, r.pattern, r.format)) =
      [ (0xFFFF, 0x00EE, .fixed), (0xF000, 0x0000, .nnn), (0xF000, 0x1000, .nnn), (0xF000, 0x2000, .nnn),
        (0xF000, 0x3000, .xkk), (0xF000, 0x4000, .xkk), (0xF00F, 0x5000, .xy), (0xF000, 0x6000, .xkk),
        (0xF000, 0x7000, .xkk), (0xF00F, 0x8000, .xy), (0xF00F, 0x8001, .xy), (0xF00F, 0x8002, .xy),
        (0xF00F, 0x8003, .xy), (0xF00F, 0x8004, .xy), (0xF00F, 0x8005, .xy), (0xF00F, 0x8006, .xy),
        (0xF00F, 0x8007, .xy) ] := by decide

theorem test_encode_words :
    encode (.sys 0x123) = 0x0123 ∧ encode (.call 0x345) = 0x2345 ∧ encode (.sneByte 15 0x01) = 0x4F01 ∧
      encode (.seReg 0 1) = 0x5010 ∧ encode (.addReg 3 4) = 0x8344 ∧ encode (.shr 3) = 0x8306 := by decide

theorem test_decodeTableWord : decodeTableWord 16 0x8344 = some (.addReg 3 4) := by decide
theorem test_decodeTableWord_unknown : decodeTableWord 16 0xA123 = none := by decide
theorem test_first_step_runs_the_placed_word :
    after State.reset 0x6A0A (fun t => (t.readV 10, t.pc)) = some (0x0A, 0x202) := by decide

/-! ### Fetch (V-FE1 to V-FE7) -/

theorem test_fetch_big_endian :
    (State.fetch { start 0x200 [] with memory := [(0x200, 0x12), (0x201, 0x34)] }) = some 0x1234 := by decide
theorem test_fetch_odd_pc : after (start 0x201 []) 0x6005 (fun t => (t.readV 0, t.pc)) = some (0x05, 0x203) := by decide
theorem test_fetch_last_word : after (start 0xFFE []) 0x0000 (fun t => t.pc) = some 0x1000 := by decide
theorem test_fetch_last_byte_faults : faultOf (start 0xFFF []) = some .pcOutOfRange := by decide
theorem test_fetch_no_wrap_of_second_byte : faultOf (bigStart 0xFFFF []) = some .pcOutOfRange := by decide

/-! ### Control transfer (V-SYS, V-JP, V-CALL, V-RET, V-SK) -/

theorem test_sys : after (start 0x200 []) 0x0123 (fun t => t.pc) = some 0x202 := by decide
theorem test_sys_wraps : after (bigStart 0xFFFE []) 0x0000 (fun t => t.pc) = some 0x0000 := by decide
theorem test_jp : after (start 0x200 []) 0x1345 (fun t => t.pc) = some 0x345 := by decide
theorem test_jp_odd : after (start 0x200 []) 0x1201 (fun t => t.pc) = some 0x201 := by decide
theorem test_call_last_slot :
    after (stackStart 0x300 15 0) 0x2400 (fun t => (t.stack[15], t.stack[14], t.sp, t.pc)) =
      some (0x302, 0, 16, 0x400) := by decide
theorem test_call_full : faultOf (place (stackStart 0x300 16 0) 0x2400) = some .stackOverflow := by decide
theorem test_ret : after (stackStart 0x345 1 0x102) 0x00EE (fun t => (t.sp, t.pc, t.stack[0])) =
    some (0, 0x102, 0x102) := by decide
theorem test_ret_on_empty_stack :
    after (start 0x200 []) 0x00EE (fun t => t) = some (place (start 0x200 []) 0x00EE) ∧
      after (reportStart 0x200) 0x00EE (fun t => (t.pc, t.sp, t.events)) =
        some (0x202, 0, [{ kind := .emptyStackReturn, opcode := 0x00EE, address := 0x200 }]) := by decide
theorem test_seByte_taken : after (start 0x200 [(2, 0x12)]) 0x3212 (fun t => t.pc) = some 0x204 := by decide
theorem test_seByte_wraps : after (bigStart 0xFFFC []) 0x3000 (fun t => t.pc) = some 0x0000 := by decide
theorem test_sneByte_taken : after (start 0x200 [(2, 0x13)]) 0x4212 (fun t => t.pc) = some 0x204 := by decide
theorem test_sneByte_not_taken : after (start 0x200 [(2, 0x12)]) 0x4212 (fun t => t.pc) = some 0x202 := by decide
theorem test_seReg_taken : after (start 0x206 [(0, 0x05), (1, 0x05)]) 0x5010 (fun t => t.pc) = some 0x20A := by decide
theorem test_seReg_not_taken : after (start 0x206 [(0, 0x05), (1, 0x06)]) 0x5010 (fun t => t.pc) = some 0x208 := by
  decide

/-! ### Register-immediate (V-LD, V-ADI) -/

theorem test_ldByte_vf : after (start 0x200 [(15, 0x01)]) 0x6F81 (fun t => (t.readV 15, t.pc)) = some (0x81, 0x202) := by
  decide
theorem test_addByte_wraps_no_flag :
    after (start 0x200 [(5, 0x80), (15, 0x07)]) 0x7580 (fun t => (t.readV 5, t.readV 15)) = some (0x00, 0x07) := by decide
theorem test_addByte_vf : after (start 0x200 [(15, 0xFE)]) 0x7F03 (fun t => t.readV 15) = some 0x01 := by decide

/-! ### Register-register (V-MV, V-OR, V-AND, V-XOR, V-ADD, V-SUB, V-SHR, V-SBN) -/

theorem test_ldReg : after (start 0x200 [(0, 0x01)]) 0x8200 (fun t => (t.readV 2, t.readV 0)) = some (0x01, 0x01) := by
  decide
theorem test_orReg : after (start 0x200 [(1, 0xF0), (2, 0x0F), (15, 0x05)]) 0x8121 (fun t => (t.readV 1, t.readV 15)) =
    some (0xFF, 0x05) := by decide
theorem test_andReg : after (start 0x200 [(1, 0xF3), (2, 0x3F), (15, 0x05)]) 0x8122 (fun t => (t.readV 1, t.readV 15)) =
    some (0x33, 0x05) := by decide
theorem test_xorReg : after (start 0x200 [(1, 0xF3), (2, 0x3F)]) 0x8123 (fun t => t.readV 1) = some 0xCC := by decide
theorem test_addReg_carry : after (start 0x200 [(3, 0xFF), (4, 0x03)]) 0x8344 (fun t => (t.readV 3, t.readV 15)) =
    some (0x02, 0x01) := by decide
theorem test_addReg_x_is_vf : after (start 0x200 [(15, 0x01), (1, 0x01)]) 0x8F14 (fun t => t.readV 15) = some 0x00 := by
  decide
theorem test_subReg_borrow : after (start 0x200 [(3, 0x0A), (4, 0x14)]) 0x8345 (fun t => (t.readV 3, t.readV 15)) =
    some (0xF6, 0x00) := by decide
theorem test_subReg_y_is_vf : after (start 0x200 [(0, 0x07), (15, 0x05)]) 0x80F5 (fun t => (t.readV 0, t.readV 15)) =
    some (0x02, 0x01) := by decide
theorem test_shr_ignores_y : after (start 0x200 [(3, 0x80), (9, 0x01)]) 0x8396 (fun t => (t.readV 3, t.readV 15)) =
    some (0x40, 0x00) := by decide
theorem test_shr_vf : after (start 0x200 [(15, 0x81)]) 0x8FF6 (fun t => t.readV 15) = some 0x01 := by decide
theorem test_subnReg_borrow : after (start 0x200 [(3, 0x14), (4, 0x0A)]) 0x8347 (fun t => (t.readV 3, t.readV 15)) =
    some (0xF6, 0x00) := by decide
theorem test_subnReg_x_is_vf : after (start 0x200 [(15, 0x03), (2, 0x01)]) 0x8F27 (fun t => t.readV 15) = some 0x00 := by
  decide

/-! ### Unknown opcodes (V-UNK1, V-UNK2) and the report of a step -/

theorem test_unknown : after (start 0x20C []) 0xA123 (fun t => (t.pc, t.I, t.events)) =
    some (0x20E, 0, [{ kind := .unknownOpcode, opcode := 0xA123, address := 0x20C }]) := by decide
theorem test_unknown_reported_once :
    (stepReport (place (start 0x200 [(1, 1), (2, 1)]) 0x5121)).event =
      some { kind := .unknownOpcode, opcode := 0x5121, address := 0x200 } := by decide
theorem test_overflow_reported :
    stepReport (place (stackStart 0x300 16 0) 0x2400) =
      { state := place (stackStart 0x300 16 0) 0x2400, reply := .stackOverflow, event := none } := by decide

/-! ### Construction, reset, load, host writes (V-RS1, V-LP1, V-LP3, V-LP5, V-CN1 to V-CN3) -/

theorem test_construct : construct 4096 0x200 .hold = some State.reset := by decide
theorem test_construct_refused : construct 4096 0x1001 .hold = none ∧ construct 65537 0x200 .hold = none := by decide
theorem test_reset_clears :
    State.doReset { start 0x456 [(5, 7)] with sp := 3, I := 0x300, DT := 9, memory := [(0x200, 0x12)] } = State.reset := by
  decide
theorem test_load : State.reset.loadProgram [0x60, 0x05] =
    .loaded { State.reset with memory := [(0x200, 0x60), (0x201, 0x05)] } := by decide
theorem test_load_clears_old_image :
    State.loadProgram { State.reset with memory := [(0x200, 0x60), (0x201, 0x05)] } [0x12] =
      .loaded { State.reset with memory := [(0x200, 0x12)] } := by decide
theorem test_load_too_large :
    State.loadProgram { State.reset with config := { memorySize := 4, loadOffset := 2, retEmptyPolicy := .hold } }
      [1, 2, 3] = .failed .programTooLarge := by decide
theorem test_write_of_zero_removes_the_entry :
    Memory.writeByte [(0x200, 0x60), (0x201, 0x05)] 0x200 0 = [(0x201, 0x05)] := by decide

/-! ### Assembler syntax (R61, R62) -/

theorem test_disassemble : disassemble (.addReg 3 4) = "ADD V3, V4".toList ∧
    disassembleWord 0x8306 = some "SHR V3".toList ∧ disassembleWord 0x83F6 = some "SHR V3".toList ∧
    disassembleWord 0x0123 = some "SYS 0x123".toList ∧ disassembleWord 0x5121 = none := by decide
theorem test_assemble : assembleWord "ADD V3, V4".toList = some 0x8344 ∧
    assembleWord "LD VA, 0x0A".toList = some 0x6A0A ∧ assembleWord "RET".toList = some 0x00EE ∧
    assembleWord "SHR V3".toList = some 0x8306 := by decide
theorem test_assemble_refuses : assemble "SYS 0x0EE".toList = none ∧ assemble "SHR V3, V4".toList = none ∧
    assemble "LD V0, 0x100".toList = none ∧ assemble "ADD V3 V4".toList = none := by decide

/-! ### Witnesses: for each statement with hypotheses, a state and operands that meet them together -/

theorem witness_DecodeOfEncodeIsIdentity :
    (Instr.sys 0xFFF).wf = true ∧ (Instr.shr 15).wf = true ∧ Instr.ret.wf = true := by decide
theorem witness_EncodeOfDecodeIsTheWord :
    decodeWord 0x8344 = .instr (.addReg 3 4) ∧ decodeWord 0x83F6 = .instr (.shr 3) := by decide
theorem witness_FirstMatchingRuleIsSelected :
    (∃ r, ruleTable[1]? = some r ∧ (0x00EF : Word) &&& r.mask = r.pattern) ∧
      (∃ q, ruleTable[0]? = some q ∧ (0x00EF : Word) &&& q.mask ≠ q.pattern) ∧
      ∀ r ∈ ruleTable, (0xFFFF : Word) &&& r.mask ≠ r.pattern :=
  ⟨⟨_, rfl, by decide⟩, ⟨_, rfl, by decide⟩, by decide⟩
theorem witness_OnlyRetAndSysOverlap :
    ∃ q r : Rule, ruleTable[0]? = some q ∧ ruleTable[1]? = some r ∧ (0x00EE : Word) &&& q.mask = q.pattern ∧
      (0x00EE : Word) &&& r.mask = r.pattern :=
  ⟨_, _, rfl, rfl, by decide, by decide⟩
theorem witness_AssembleOfDisassembleIsIdentity :
    (Instr.jp 0xABC).wf = true ∧ assemble "JP 0xABC".toList = some (.jp 0xABC) := by decide
theorem witness_FetchReadsBigEndianWord :
    (start 0xFFE []).pc.toNat + 1 < (start 0xFFE []).config.memorySize := by decide
theorem witness_StepRunsDecodedInstruction :
    (place (start 0xFFE []) 0x8344).pc.toNat + 1 < (place (start 0xFFE []) 0x8344).config.memorySize ∧
      decodeBytes [Memory.readByte (place (start 0xFFE []) 0x8344).memory 0xFFE,
        Memory.readByte (place (start 0xFFE []) 0x8344).memory 0xFFF] = some (.instr (.addReg 3 4), []) := by decide
theorem witness_UnknownWordIsSkippedWithOneEvent :
    (place (start 0x200 []) 0x5121).fetch = some 0x5121 ∧ decodeWord 0x5121 = .unknownOpcode 0x5121 := by decide
theorem witness_PcOutOfRangeExactly :
    faultOf (start 0xFFF []) = some .pcOutOfRange ∧ faultOf (start 0xFFE []) = none := by decide
theorem witness_StackOverflowExactly :
    step (place (stackStart 0x200 16 0) 0x2000) = .fault .stackOverflow ∧
      exec (.call 0) (stackStart 0x200 16 0) = .fault .stackOverflow := ⟨rfl, rfl⟩
theorem witness_StepCompletesExactlyWhenReady :
    StepReady (place (stackStart 0xFFE 15 0) 0x2000) ∧ CallOnFullStack (place (stackStart 0x200 16 0) 0x2000) := by
  refine ⟨⟨by decide, ?_⟩, by decide, 0x2000, by decide, by decide⟩
  rintro ⟨h, -⟩
  exact absurd h (by decide)
theorem witness_AtMostOneEventPerStep :
    (place (reportStart 0x200) 0x00EE).fetch = some 0x00EE ∧ ∃ t, step (place (reportStart 0x200) 0x00EE) = .next t :=
  ⟨by decide, _, rfl⟩
theorem witness_FailedStepLeavesTheState :
    (stepReport (place (stackStart 0x200 16 0) 0x2000)).reply ≠ .ok ∧ (stepReport (start 0xFFF [])).reply ≠ .ok := by
  decide
theorem witness_RetPopsTheReturnAddress :
    (0x00EE : Word) &&& 0xFFFF = 0x00EE ∧ (stackStart 0x200 1 0x102).sp.val = 0 + 1 ∧
      (stackStart 0x200 16 0x102).sp.val = 15 + 1 := by decide
theorem witness_RetOnEmptyStackByPolicy :
    (start 0x200 []).sp.val = 0 ∧ (start 0x200 []).config.retEmptyPolicy = .hold ∧
      (reportStart 0x200).sp.val = 0 ∧ (reportStart 0x200).config.retEmptyPolicy = .report := by decide
/-- For the statements on `SYS`, `JP`, `CALL`, `SE Vx, byte`, `SNE Vx, byte`, `LD Vx, byte` and `ADD Vx, byte`: a word that
their encoding clause speaks of, every operand bit set. -/
theorem witness_words_of_the_op_masks :
    (0x0FFF : Word) &&& 0xF000 = 0x0000 ∧ (0x0FFF : Word) ≠ 0x00EE ∧ (0x1FFF : Word) &&& 0xF000 = 0x1000 ∧
      (0x2FFF : Word) &&& 0xF000 = 0x2000 ∧ (0x3FFF : Word) &&& 0xF000 = 0x3000 ∧
      (0x4FFF : Word) &&& 0xF000 = 0x4000 ∧ (0x6FFF : Word) &&& 0xF000 = 0x6000 ∧
      (0x7FFF : Word) &&& 0xF000 = 0x7000 := by decide
/-- For the statements on `SE Vx, Vy` and the eight register-register instructions: a word that their encoding clause
speaks of, every operand bit set. -/
theorem witness_words_of_the_op_and_sub_masks :
    (0x5FF0 : Word) &&& 0xF00F = 0x5000 ∧ (0x5FFF : Word).toNat / 4096 = 5 ∧ (0x5FFF : Word).toNat % 16 ≠ 0 ∧
      (0x8FF0 : Word) &&& 0xF00F = 0x8000 ∧ (0x8FF1 : Word) &&& 0xF00F = 0x8001 ∧
      (0x8FF2 : Word) &&& 0xF00F = 0x8002 ∧ (0x8FF3 : Word) &&& 0xF00F = 0x8003 ∧
      (0x8FF4 : Word) &&& 0xF00F = 0x8004 ∧ (0x8FF5 : Word) &&& 0xF00F = 0x8005 ∧
      (0x8FF6 : Word) &&& 0xF00F = 0x8006 ∧ (0x8FF7 : Word) &&& 0xF00F = 0x8007 := by decide
theorem witness_JpJumpsToTheAbsoluteTarget : (0x200 : Addr).toNat = (start 0x200 []).pc.toNat := by decide
theorem witness_CallPushesAndJumps :
    (stackStart 0x200 15 0).sp.val ≠ 16 ∧ (15 : Fin 16).val = (stackStart 0x200 15 0).sp.val ∧
      (14 : Fin 16).val ≠ (stackStart 0x200 15 0).sp.val ∧ (stackStart 0x200 16 0).sp.val = 16 := by decide
theorem witness_SeByteSkipsIfEqual :
    ((start 0x200 [(15, 0xFF)]).readV 15).toNat = (0xFF : Byte).toNat ∧
      ((start 0x200 []).readV 15).toNat ≠ (0xFF : Byte).toNat := by decide
theorem witness_SneByteSkipsIfNotEqual :
    ((start 0x200 []).readV 0).toNat ≠ (0xFF : Byte).toNat ∧ ((start 0x200 []).readV 0).toNat = (0 : Byte).toNat := by
  decide
theorem witness_SeRegSkipsIfRegistersEqual :
    ((start 0x200 [(1, 5)]).readV 1).toNat ≠ ((start 0x200 [(1, 5)]).readV 2).toNat ∧
      ((start 0x200 [(1, 5)]).readV 0).toNat = ((start 0x200 [(1, 5)]).readV 2).toNat := by decide
/-- For the statements on `ADD Vx, Vy`, `SUB`, `SHR` and `SUBN`: a destination that is not `VF`, and one that is. -/
theorem witness_flag_rules_x_not_vf_and_x_vf : (14 : Reg) ≠ 15 ∧ ¬ (15 : Reg) ≠ 15 := by decide
theorem witness_FlagAndResultRecoverTheOperands :
    (3 : Reg) ≠ 15 ∧ (∃ t, exec (.addReg 3 15) (start 0x200 []) = .next t) ∧
      (∃ t, exec (.subReg 3 15) (start 0x200 []) = .next t) ∧ (∃ t, exec (.subnReg 3 15) (start 0x200 []) = .next t) ∧
      ∃ t, exec (.shr 3) (start 0x200 []) = .next t :=
  ⟨by decide, ⟨_, rfl⟩, ⟨_, rfl⟩, ⟨_, rfl⟩, ⟨_, rfl⟩⟩
theorem witness_StepWritesOnlyTheNamedRegisters :
    ((place (start 0x200 []) 0x8FF4).fetch = some 0x8FF4 ∧ ∃ t, step (place (start 0x200 []) 0x8FF4) = .next t) ∧
      ((place (start 0x200 []) 0x8FF8).fetch = some 0x8FF8 ∧ ∃ t, step (place (start 0x200 []) 0x8FF8) = .next t) ∧
      (∃ t, exec (.addReg 15 15) (start 0x200 []) = .next t) ∧ ∃ t, exec (.shr 15) (start 0x200 []) = .next t :=
  ⟨⟨by decide, _, rfl⟩, ⟨by decide, _, rfl⟩, ⟨_, rfl⟩, ⟨_, rfl⟩⟩
theorem witness_StepNeverWritesMemoryTimersOrConfig : ∃ t, step (place (start 0x200 []) 0xF000) = .next t := ⟨_, rfl⟩
theorem witness_OnlyCallAndRetTouchTheStack :
    ((place (stackStart 0x200 15 0) 0x2000).fetch = some 0x2000 ∧
        (∃ t, step (place (stackStart 0x200 15 0) 0x2000) = .next t) ∧ (0x2000 : Word).toNat / 4096 = 2) ∧
      ((place (stackStart 0x200 0 0) 0x00EE).fetch = some 0x00EE ∧
        ∃ t, step (place (stackStart 0x200 0 0) 0x00EE) = .next t) ∧
      ((place (stackStart 0x200 1 0) 0x00EE).fetch = some 0x00EE ∧
        ∃ t, step (place (stackStart 0x200 1 0) 0x00EE) = .next t) ∧
      ((place (start 0x200 []) 0x00EF).fetch = some 0x00EF ∧ (∃ t, step (place (start 0x200 []) 0x00EF) = .next t) ∧
        (0x00EF : Word).toNat / 4096 ≠ 2 ∧ (0x00EF : Word) ≠ 0x00EE) :=
  ⟨⟨by decide, ⟨_, rfl⟩, by decide⟩, ⟨by decide, _, rfl⟩, ⟨by decide, _, rfl⟩, by decide, ⟨_, rfl⟩, by decide, by decide⟩
theorem witness_PcChangesAsTheTableSays :
    (start 0xFFF []).fetch = none ∧ (place (start 0xFFE []) 0x2000).fetch = some 0x2000 ∧
      (place (stackStart 0x200 16 0) 0x2000).fetch = some 0x2000 := by decide
theorem witness_PcKeepsItsParity :
    (place (bigStart 0xFFFD []) 0x3000).fetch = some 0x3000 ∧
      (∃ t, step (place (bigStart 0xFFFD []) 0x3000) = .next t) ∧ (0x3000 : Word) ≠ 0x00EE ∧
      (0x3000 : Word).toNat / 4096 ≠ 1 ∧ (0x3000 : Word).toNat / 4096 ≠ 2 :=
  ⟨by decide, ⟨_, rfl⟩, by decide, by decide, by decide⟩
theorem witness_ReturnLandsAfterItsCall :
    ∃ t u : State, exec (.call 0x300) (start 0x200 []) = .next t ∧ RunsAbove ((start 0x200 []).sp.val + 1) 2 t u ∧
      u.sp.val = (start 0x200 []).sp.val + 1 :=
  ⟨_, _, rfl, ⟨by decide, _, rfl, by decide, _, rfl, by decide, rfl⟩, by decide⟩
/-- At each end: the lowest slot under a `CALL` that fills the stack, and the highest that stays under a `RET`. -/
theorem witness_StepKeepsOccupiedReturnAddresses :
    (0 < (place (stackStart 0x200 15 0x102) 0x2000).sp.val ∧ (place (stackStart 0x200 15 0x102) 0x2000).stack[0] = 0x102 ∧
        ∃ t, step (place (stackStart 0x200 15 0x102) 0x2000) = .next t ∧ 0 < t.sp.val) ∧
      (14 < (place (stackStart 0x200 16 0x102) 0x00EE).sp.val ∧ (place (stackStart 0x200 16 0x102) 0x00EE).stack[14] = 0x102 ∧
        ∃ t, step (place (stackStart 0x200 16 0x102) 0x00EE) = .next t ∧ 14 < t.sp.val) :=
  ⟨⟨by decide, by decide, _, rfl, by decide⟩, by decide, by decide, _, rfl, by decide⟩
theorem witness_StepReadsOnlyTheFetchedBytes :
    Memory.readByte [(0x100, 7)] (start 0x200 []).pc.toNat =
        Memory.readByte (start 0x200 []).memory (start 0x200 []).pc.toNat ∧
      Memory.readByte [(0x100, 7)] ((start 0x200 []).pc.toNat + 1) =
        Memory.readByte (start 0x200 []).memory ((start 0x200 []).pc.toNat + 1) := by decide
theorem witness_StepKeepsTheInvariant :
    StateInv (place (start 0x200 []) 0x8344) ∧ ∃ t, step (place (start 0x200 []) 0x8344) = .next t :=
  ⟨⟨by decide, by decide, by decide⟩, _, rfl⟩
theorem witness_TransactionsKeepTheInvariant :
    construct 65536 0xFFFF .report ≠ none ∧ construct 0 0 .hold ≠ none ∧
      StateInv { start 0x200 [] with memory := [(0, 1), (4095, 255)] } :=
  ⟨by decide, by decide, by decide, by decide, by decide⟩
theorem witness_ResetLeavesTheResetValues :
    (bigStart 0x456 [(5, 7)]).config.Legal ∧ construct 65536 65535 .report ≠ none := by decide
theorem witness_ResetReturnsToTheConstructedState :
    ∃ t, construct 65536 0xFFFF .report = some t := ⟨_, rfl⟩
theorem witness_LoadProgramChecksResetsAndCopies :
    ∃ s : State, s.config.Legal ∧ ([1, 2, 3] : List Byte).length > s.config.memorySize - s.config.loadOffset ∧
      ([1, 2] : List Byte).length ≤ s.config.memorySize - s.config.loadOffset :=
  ⟨{ State.reset with config := { memorySize := 4, loadOffset := 2, retEmptyPolicy := .hold } }, by decide, by decide,
    by decide⟩
theorem witness_FirstFetchIsAtTheLoadOffset :
    construct 4096 0x200 .hold = some State.reset ∧ 0x200 + 1 < 4096 ∧ State.reset.config.Legal ∧
      State.reset.loadProgram [0x60, 0x05] = .loaded { State.reset with memory := [(0x200, 0x60), (0x201, 0x05)] } := by
  decide
theorem witness_HostWritesChangeOnlyTheirTarget :
    Memory.wf (start 0x200 []).memory = true ∧ 4095 < (start 0x200 []).config.memorySize ∧
      0x200 = (start 0x200 []).pc.toNat ∧ (start 0x200 []).fetch = some 0x0000 ∧
      (start 0x200 []).config.memorySize ≤ 4096 := by decide
theorem witness_SelfJumpIsAFixedPoint : SelfJump (place (start 0x200 []) 0x1200) :=
  ⟨0x1200, 0x200, by decide, by decide, by decide⟩
theorem witness_HeldReturnHangsForever : HeldReturn (place (start 0x200 []) 0x00EE) := ⟨by decide, by decide, by decide⟩
theorem witness_ZeroMemoryOnlyAdvancesPcUntilTheEnd :
    ∃ s : State, s.config.Legal ∧ (∀ a, Memory.readByte s.memory a = 0) ∧ s.pc.toNat + 2 * 1 < 65536 ∧
      s.pc.toNat + 2 * 1 ≤ s.config.memorySize ∧ s.config.memorySize ≤ s.pc.toNat + 2 * 1 + 1 :=
  ⟨start 0xFFE [], by decide, fun _ => rfl, by decide, by decide, by decide⟩

end Sys2Proof.Tests
end

section
/-! The reset state (R31), and construction and `reset` in terms of it. -/

namespace Sys2Proof.Machine

section OfConfig
variable (c : Config)

@[simp] theorem ofConfig_V : (State.ofConfig c).V = Vector.replicate 16 0 := rfl
@[simp] theorem ofConfig_stack : (State.ofConfig c).stack = Vector.replicate 16 0 := rfl
@[simp] theorem ofConfig_sp : (State.ofConfig c).sp = 0 := rfl
@[simp] theorem ofConfig_pc : (State.ofConfig c).pc = BitVec.ofNat 16 c.loadOffset := rfl
@[simp] theorem ofConfig_I : (State.ofConfig c).I = 0 := rfl
@[simp] theorem ofConfig_DT : (State.ofConfig c).DT = 0 := rfl
@[simp] theorem ofConfig_ST : (State.ofConfig c).ST = 0 := rfl
@[simp] theorem ofConfig_memory : (State.ofConfig c).memory = [] := rfl
@[simp] theorem ofConfig_config : (State.ofConfig c).config = c := rfl
@[simp] theorem ofConfig_events : (State.ofConfig c).events = [] := rfl

@[simp] theorem readV_ofConfig (r : Reg) : (State.ofConfig c).readV r = 0 := by
  rw [State.readV, ofConfig_V, Vector.getElem_replicate]

theorem ofConfig_stack_getElem (j : Fin 16) : (State.ofConfig c).stack[j.val] = 0 := by
  simp only [ofConfig_stack, Vector.getElem_replicate]

end OfConfig

@[simp] theorem doReset_eq_ofConfig (s : State) : s.doReset = State.ofConfig s.config := rfl

/-- `pc` has 16 bits, so it holds `LOAD_OFFSET` unreduced because legality bounds the parameter by `0xFFFF` (R5). -/
theorem ofConfig_pc_toNat {c : Config} (hc : c.Legal) : (State.ofConfig c).pc.toNat = c.loadOffset := by
  obtain ⟨-, -, hoffset⟩ := hc
  have hlt : c.loadOffset < 2 ^ 16 := by omega
  rw [ofConfig_pc, BitVec.toNat_ofNat, Nat.mod_eq_of_lt hlt]

/-- R31, for every legal choice of the parameters. -/
theorem resetValues_ofConfig {c : Config} (hc : c.Legal) : ResetValues (State.ofConfig c) :=
  ⟨readV_ofConfig c, ofConfig_stack_getElem c, rfl, ofConfig_pc_toNat hc, rfl, rfl, rfl, readByte_nil⟩

/-- Construction answers the reset state of the given parameters, exactly when they are legal (R98). -/
theorem construct_eq_some_iff {m o : Nat} {p : RetEmptyPolicy} {t : State} :
    construct m o p = some t ↔
      Config.Legal { memorySize := m, loadOffset := o, retEmptyPolicy := p } ∧
        t = State.ofConfig { memorySize := m, loadOffset := o, retEmptyPolicy := p } := by
  rw [construct, Option.ite_none_right_eq_some, Option.some_inj, eq_comm (a := t)]

theorem config_standard_legal : Config.standard.Legal := by decide

/-- Settles O47: `reset` and construction both leave the reset state of legal parameters. -/
theorem resetLeavesTheResetValues : Obligations.ResetLeavesTheResetValues := by
  unfold Obligations.ResetLeavesTheResetValues
  refine ⟨fun s hs => ?_, fun m o p t ht => ?_, resetValues_ofConfig config_standard_legal⟩
  · rw [doReset_eq_ofConfig]
    exact ⟨resetValues_ofConfig hs, ofConfig_config s.config⟩
  · obtain ⟨hlegal, rfl⟩ := construct_eq_some_iff.mp ht
    exact ⟨resetValues_ofConfig hlegal, rfl, rfl, rfl⟩

end Sys2Proof.Machine
end

section
/-! The fetched word (R35). -/

namespace Sys2Proof.Machine

/-- Settles O9: in range the fetch answers the two bytes at `pc` as one word, and the step follows that word's decode. -/
theorem fetchReadsBigEndianWord : Obligations.FetchReadsBigEndianWord := by
  unfold Obligations.FetchReadsBigEndianWord
  intro s hrange
  have hfetch := fetch_eq_some.mpr ⟨hrange, rfl⟩
  exact ⟨_, hfetch, wordOfBytes_toNat _ _, fun _ => step_of_instr hfetch, step_of_unknown hfetch⟩

end Sys2Proof.Machine
end

section
/-! Decode as a search of the rule table (R53, R54). -/

namespace Sys2Proof

/-- The matching test is the equation of R53. -/
theorem ruleMatches_iff {r : Rule} {w : Word} : ruleMatches r w = true ↔ w &&& r.mask = r.pattern := beq_iff_eq

/-- Decode builds the instruction from the rule at position `n` when that rule matches and none before it does (R54). -/
theorem decodeWord_of_first_match {w : Word} {n : Nat} {r : Rule} (hr : ruleTable[n]? = some r)
    (hmatch : w &&& r.mask = r.pattern)
    (hfirst : ∀ (m : Nat) (q : Rule), m < n → ruleTable[m]? = some q → w &&& q.mask ≠ q.pattern) :
    decodeWord w = .instr (r.build w) := by
  obtain ⟨hn, hget⟩ := List.getElem?_eq_some_iff.mp hr
  have hfind : ruleTable.find? (fun q => ruleMatches q w) = some r := by
    refine List.find?_eq_some_iff_getElem.mpr ⟨ruleMatches_iff.mpr hmatch, n, hn, hget, fun m hm => ?_⟩
    rw [Bool.not_eq_true', ← Bool.not_eq_true, ruleMatches_iff]
    exact hfirst m _ hm (List.getElem?_eq_getElem (hm.trans hn))
  simp only [decodeWord, hfind]

/-- Decode rejects a word that no rule of the table matches (R54). -/
theorem decodeWord_of_no_match {w : Word}
    (hnone : ∀ (n : Nat) (r : Rule), ruleTable[n]? = some r → w &&& r.mask ≠ r.pattern) :
    decodeWord w = .unknownOpcode w := by
  have hfind : ruleTable.find? (fun q => ruleMatches q w) = none := by
    refine List.find?_eq_none.mpr fun r hr => ?_
    obtain ⟨n, hn⟩ := List.mem_iff_getElem?.mp hr
    exact fun hmatch => hnone n r hn (ruleMatches_iff.mp hmatch)
  simp only [decodeWord, hfind]

/-- Settles O3: decode is the library's search for the first rule that matches, and the first two rules are read off
the table. -/
theorem firstMatchingRuleIsSelected : Obligations.FirstMatchingRuleIsSelected := by
  unfold Obligations.FirstMatchingRuleIsSelected
  refine ⟨fun w n r => decodeWord_of_first_match, fun w => decodeWord_of_no_match, ?_, ?_⟩
  · exact ⟨_, _, rfl, rfl, rfl, rfl, rfl, rfl⟩
  · exact decodeWord_of_first_match (n := 0) rfl (by decide) fun m q hm => absurd hm m.not_lt_zero

end Sys2Proof
end

section
/-! Two rules that match one word, and the fields of a word as integers (R48, R53). -/

namespace Sys2Proof

/-- One word meets two masks only where the patterns agree on the bits the masks share. -/
theorem patterns_agree {w m p m' p' : Word} (h : w &&& m = p) (h' : w &&& m' = p') : p &&& m' = p' &&& m := by
  rw [← h, ← h', BitVec.and_assoc, BitVec.and_assoc, BitVec.and_comm m]

/-- Decode builds the instruction from the matching rule at position `n` when every rule before it differs from it in
a bit that both compare. -/
theorem decodeWord_of_distinct_before {w : Word} {n : Nat} {r : Rule} (hr : ruleTable[n]? = some r)
    (hmatch : w &&& r.mask = r.pattern)
    (hbefore : ∀ q ∈ ruleTable.take n, q.pattern &&& r.mask ≠ r.pattern &&& q.mask) :
    decodeWord w = .instr (r.build w) := by
  refine decodeWord_of_first_match hr hmatch fun m q hm hq hqmatch => ?_
  have hmem : q ∈ ruleTable.take n := List.mem_iff_getElem?.mpr ⟨m, by rw [List.getElem?_take_of_lt hm, hq]⟩
  exact hbefore q hmem (patterns_agree hqmatch hmatch)

theorem fieldNNN_toNat (w : Word) : (fieldNNN w).toNat = w.toNat % 4096 := by
  rw [fieldNNN, BitVec.extractLsb'_toNat, Nat.shiftRight_zero]

theorem fieldKK_toNat (w : Word) : (fieldKK w).toNat = w.toNat % 256 := by
  rw [fieldKK, BitVec.extractLsb'_toNat, Nat.shiftRight_zero]

theorem fieldX_val (w : Word) : (fieldX w).val = w.toNat / 256 % 16 := by
  simp only [fieldX, regOfBits, BitVec.extractLsb'_toNat, Nat.shiftRight_eq_div_pow, Nat.reducePow]

theorem fieldY_val (w : Word) : (fieldY w).val = w.toNat / 16 % 16 := by
  simp only [fieldY, regOfBits, BitVec.extractLsb'_toNat, Nat.shiftRight_eq_div_pow, Nat.reducePow]

/-- `RET` stands before `SYS`, and takes only `0x00EE` from it (R54). -/
theorem decodeWord_sys {w : Word} (h : w &&& 0xF000 = 0x0000) (hne : w ≠ 0x00EE) :
    decodeWord w = .instr (.sys (fieldNNN w)) := by
  refine decodeWord_of_first_match (n := 1) rfl h fun m q hm hq hqmatch => ?_
  obtain rfl : m = 0 := by omega
  obtain rfl := Option.some.inj hq
  exact hne ((word_mask_all w).symm.trans hqmatch)

/-- A word `0x5xyN` with `N` not 0 differs from every rule in a bit of `0xF00F` that the rule compares. -/
theorem op_five_sub_ne_zero_distinct :
    ∀ sub : BitVec 4, sub.toNat ≠ 0 → ∀ q ∈ ruleTable, q.pattern &&& 0xF00F ≠ nibbles 5 0 0 sub &&& q.mask := by
  decide

/-- A word `0x5xyN` with `N` not 0 is unknown (R58, R69). -/
theorem decodeWord_unknown_of_op_five {w : Word} (hop : w.toNat / 4096 = 5) (hsub : w.toNat % 16 ≠ 0) :
    decodeWord w = .unknownOpcode w := by
  refine decodeWord_of_no_match fun n r hr hmatch => ?_
  obtain ⟨op, x, y, sub, rfl⟩ := word_eq_nibbles w
  rw [nibbles_toNat] at hop hsub
  obtain rfl : op = 5 := BitVec.eq_of_toNat_eq (show op.toNat = 5 by omega)
  exact op_five_sub_ne_zero_distinct sub (by omega) r (List.mem_of_getElem? hr)
    (patterns_agree hmatch (nibbles_mask_op_sub 5 x y sub))

end Sys2Proof
end

section
/-! The frames of the updates that write `pc` only, and control transfer and skips in terms of them (R63 to R70). -/

namespace Sys2Proof.Machine

theorem regFrame_setPc (s : State) (a : Word) : RegFrame [] s (s.setPc a) :=
  ⟨fun r _ => readV_setPc s a r, ⟨setPc_stack s a, setPc_sp s a⟩,
    ⟨setPc_I s a, setPc_DT s a, setPc_ST s a, setPc_config s a, fun _ => by rw [setPc_memory]⟩, setPc_events s a⟩

@[simp] theorem setPc_self (s : State) : s.setPc s.pc = s := rfl

theorem regFrame_advance (s : State) (n : Nat) : RegFrame [] s (s.advance n) := regFrame_setPc s (s.pcPlus n)

theorem pcBy_advance (s : State) (n : Nat) : PcBy n s (s.advance n) := pcPlus_toNat s n

/-- A skip is an advance, whatever the condition. -/
theorem skipIf_eq_advance (s : State) (c : Bool) : s.skipIf c = s.advance (if c then 4 else 2) := by
  cases c <;> rfl

theorem regFrame_skipIf (s : State) (c : Bool) : RegFrame [] s (s.skipIf c) := by
  rw [skipIf_eq_advance]
  exact regFrame_advance s _

theorem pcBy_skipIf_taken {s : State} {c : Bool} (h : c = true) : PcBy 4 s (s.skipIf c) := by
  rw [h]
  exact pcBy_advance s 4

theorem pcBy_skipIf_not_taken {s : State} {c : Bool} (h : c = false) : PcBy 2 s (s.skipIf c) := by
  rw [h]
  exact pcBy_advance s 2

/-- The target is widened from 12 bits to 16, so it keeps its value (R50). -/
theorem targetOf_toNat (nnn : Addr) : (targetOf nnn).toNat = nnn.toNat :=
  BitVec.toNat_setWidth_of_le (by decide)

/-- Settles O17: `SYS` is an advance by 2. -/
theorem sysOnlyAdvancesPc : Obligations.SysOnlyAdvancesPc := by
  unfold Obligations.SysOnlyAdvancesPc
  refine ⟨fun w h hne => ⟨fieldNNN w, fieldNNN_toNat w, decodeWord_sys h hne⟩, fun nnn s => ?_⟩
  exact ⟨s.advance 2, rfl, pcBy_advance s 2, regFrame_advance s 2⟩

/-- Settles O20: `JP` writes `pc` only, and with the value it has where the target is `pc`. -/
theorem jpJumpsToTheAbsoluteTarget : Obligations.JpJumpsToTheAbsoluteTarget := by
  unfold Obligations.JpJumpsToTheAbsoluteTarget
  refine ⟨fun w h => ?_, fun nnn s => ?_⟩
  · exact ⟨fieldNNN w, fieldNNN_toNat w, decodeWord_of_distinct_before (n := 2) rfl h (by decide)⟩
  · refine ⟨s.setPc (targetOf nnn), rfl, targetOf_toNat nnn, regFrame_setPc s _, fun hself => ?_⟩
    have htarget : targetOf nnn = s.pc := BitVec.eq_of_toNat_eq ((targetOf_toNat nnn).trans hself)
    rw [htarget, setPc_self]

/-- Settles O21: the two cases of the push decide `CALL`. -/
theorem callPushesAndJumps : Obligations.CallPushesAndJumps := by
  unfold Obligations.CallPushesAndJumps
  refine ⟨fun w h => ?_, fun nnn s hsp => ?_, fun nnn s => execCall_full nnn⟩
  · exact ⟨fieldNNN w, fieldNNN_toNat w, decodeWord_of_distinct_before (n := 3) rfl h (by decide)⟩
  · have hlt : s.sp.val < 16 := by have := s.sp.isLt; omega
    refine ⟨_, execCall_of_lt nnn hlt, rfl, targetOf_toNat nnn, fun j hj => ?_, fun j hj => ?_, fun _ _ => rfl,
      ⟨rfl, rfl, rfl, rfl, fun _ => rfl⟩, rfl⟩
    · simp only [setPc_stack, hj, Vector.getElem_set_self, pcPlus_toNat]
    · exact Vector.getElem_set_ne hlt j.isLt hj.symm

/-- Settles O22: `SE Vx, byte` is the skip on its comparison. -/
theorem seByteSkipsIfEqual : Obligations.SeByteSkipsIfEqual := by
  unfold Obligations.SeByteSkipsIfEqual
  refine ⟨fun w h => ?_, fun x kk s => ?_⟩
  · exact ⟨fieldX w, fieldKK w, fieldX_val w, fieldKK_toNat w,
      decodeWord_of_distinct_before (n := 4) rfl h (by decide)⟩
  · refine ⟨s.skipIf (s.readV x == kk), rfl, fun heq => pcBy_skipIf_taken ?_,
      fun hne => pcBy_skipIf_not_taken ?_, regFrame_skipIf s _⟩
    · exact beq_iff_eq.mpr (BitVec.eq_of_toNat_eq heq)
    · exact beq_eq_false_iff_ne.mpr (BitVec.toNat_ne_iff_ne.mp hne)

/-- Settles O23: `SNE Vx, byte` is the skip on the opposite comparison. -/
theorem sneByteSkipsIfNotEqual : Obligations.SneByteSkipsIfNotEqual := by
  unfold Obligations.SneByteSkipsIfNotEqual
  refine ⟨fun w h => ?_, fun x kk s => ?_⟩
  · exact ⟨fieldX w, fieldKK w, fieldX_val w, fieldKK_toNat w,
      decodeWord_of_distinct_before (n := 5) rfl h (by decide)⟩
  · refine ⟨s.skipIf (s.readV x != kk), rfl, fun hne => pcBy_skipIf_taken ?_,
      fun heq => pcBy_skipIf_not_taken ?_, regFrame_skipIf s _⟩
    · exact bne_iff_ne.mpr (BitVec.toNat_ne_iff_ne.mp hne)
    · exact bne_eq_false_iff_eq.mpr (BitVec.eq_of_toNat_eq heq)

/-- Settles O24: `SE Vx, Vy` is the skip on its comparison. -/
theorem seRegSkipsIfRegistersEqual : Obligations.SeRegSkipsIfRegistersEqual := by
  unfold Obligations.SeRegSkipsIfRegistersEqual
  refine ⟨fun w h => ?_, fun w => decodeWord_unknown_of_op_five, fun x y s => ?_⟩
  · exact ⟨fieldX w, fieldY w, fieldX_val w, fieldY_val w,
      decodeWord_of_distinct_before (n := 6) rfl h (by decide)⟩
  · refine ⟨s.skipIf (s.readV x == s.readV y), rfl, fun heq => pcBy_skipIf_taken ?_,
      fun hne => pcBy_skipIf_not_taken ?_, regFrame_skipIf s _⟩
    · exact beq_iff_eq.mpr (BitVec.eq_of_toNat_eq heq)
    · exact beq_eq_false_iff_ne.mpr (BitVec.toNat_ne_iff_ne.mp hne)

end Sys2Proof.Machine
end

section
/-! The commit of a rule with no flag, and the register-immediate operations in terms of it (R71 to R73). -/

namespace Sys2Proof.Machine

theorem readV_commit_same (s : State) (x : Reg) (b : Byte) : (s.commit x b).readV x = b := by
  rw [readV_commit, if_pos rfl]

theorem readV_commit_ne (s : State) {x y : Reg} (b : Byte) (h : x ≠ y) : (s.commit x b).readV y = s.readV y := by
  rw [readV_commit, if_neg h]

theorem pcBy_commit (s : State) (x : Reg) (b : Byte) : PcBy 2 s (s.commit x b) := pcPlus_toNat s 2

theorem regFrame_commit (s : State) (x : Reg) (b : Byte) : RegFrame [x] s (s.commit x b) :=
  ⟨fun _ hr => readV_commit_ne s b (List.ne_of_not_mem_cons hr).symm, ⟨commit_stack s x b, commit_sp s x b⟩,
    ⟨commit_I s x b, commit_DT s x b, commit_ST s x b, commit_config s x b, fun _ => by rw [commit_memory]⟩,
    commit_events s x b⟩

/-- Settles O25: `LD Vx, byte` commits the byte. -/
theorem ldByteLoadsTheImmediate : Obligations.LdByteLoadsTheImmediate := by
  unfold Obligations.LdByteLoadsTheImmediate
  refine ⟨fun w h => ?_, fun x kk s => ?_⟩
  · exact ⟨fieldX w, fieldKK w, fieldX_val w, fieldKK_toNat w,
      decodeWord_of_distinct_before (n := 7) rfl h (by decide)⟩
  · exact ⟨s.commit x kk, rfl, readV_commit_same s x kk, pcBy_commit s x kk, regFrame_commit s x kk⟩

/-- Settles O26: `ADD Vx, byte` commits the sum of two bytes, which wraps as a byte does. -/
theorem addByteWrapsWithoutFlag : Obligations.AddByteWrapsWithoutFlag := by
  unfold Obligations.AddByteWrapsWithoutFlag
  refine ⟨fun w h => ?_, fun x kk s => ?_⟩
  · exact ⟨fieldX w, fieldKK w, fieldX_val w, fieldKK_toNat w,
      decodeWord_of_distinct_before (n := 8) rfl h (by decide)⟩
  · refine ⟨s.commit x (s.readV x + kk), rfl, ?_, pcBy_commit s x _, regFrame_commit s x _⟩
    rw [readV_commit_same, BitVec.toNat_add]

end Sys2Proof.Machine
end

section
/-! Decode of the rules of format XY, which take their operands from the fields `x` and `y` (R49, R52). -/

namespace Sys2Proof

/-- The rule of format XY at position `n` decodes a word that has its pattern, when every rule before it differs from
it in a bit that both compare. -/
theorem decodeWord_xy {n : Nat} {p w : Word} {mk : Reg → Reg → Instr}
    (hr : ruleTable[n]? = some ⟨0xF00F, p, .xy, fun w => mk (fieldX w) (fieldY w)⟩) (h : w &&& 0xF00F = p)
    (hbefore : ∀ q ∈ ruleTable.take n, q.pattern &&& 0xF00F ≠ p &&& q.mask) :
    ∃ x y : Reg, x.val = w.toNat / 256 % 16 ∧ y.val = w.toNat / 16 % 16 ∧ decodeWord w = .instr (mk x y) :=
  ⟨fieldX w, fieldY w, fieldX_val w, fieldY_val w, decodeWord_of_distinct_before hr h hbefore⟩

end Sys2Proof
end

section
/-! The commit of a rule with a flag, the values it commits, and the register-register operations in terms of them
(R73 to R81). -/

namespace Sys2Proof.Machine

theorem readV_commitFlag_vf (s : State) (x : Reg) (b f : Byte) : (s.commitFlag x b f).readV vf = f := by
  rw [readV_commitFlag, if_pos rfl]

theorem readV_commitFlag_dest (s : State) {x : Reg} (b f : Byte) (hx : x ≠ vf) :
    (s.commitFlag x b f).readV x = b := by
  rw [readV_commitFlag, if_neg hx.symm, if_pos rfl]

theorem readV_commitFlag_ne (s : State) {x y : Reg} (b f : Byte) (hx : x ≠ y) (hvf : vf ≠ y) :
    (s.commitFlag x b f).readV y = s.readV y := by
  rw [readV_commitFlag, if_neg hvf, if_neg hx]

theorem pcBy_commitFlag (s : State) (x : Reg) (b f : Byte) : PcBy 2 s (s.commitFlag x b f) := pcPlus_toNat s 2

theorem regFrame_commitFlag (s : State) (x : Reg) (b f : Byte) : RegFrame [x, vf] s (s.commitFlag x b f) := by
  refine ⟨fun r hr => ?_, ⟨commitFlag_stack s x b f, commitFlag_sp s x b f⟩,
    ⟨commitFlag_I s x b f, commitFlag_DT s x b f, commitFlag_ST s x b f, commitFlag_config s x b f,
      fun _ => by rw [commitFlag_memory]⟩, commitFlag_events s x b f⟩
  obtain ⟨hx, hvf⟩ := not_or.mp (List.mem_pair.not.mp hr)
  exact readV_commitFlag_ne s b f (Ne.symm hx) (Ne.symm hvf)

theorem carryFlag_toNat (a b : Byte) : (carryFlag a b).toNat = if a.toNat + b.toNat > 255 then 1 else 0 := by
  rw [carryFlag, flagOf_toNat]
  simp only [decide_eq_true_eq]

theorem notBorrowFlag_toNat (a b : Byte) : (notBorrowFlag a b).toNat = if a.toNat ≥ b.toNat then 1 else 0 := by
  rw [notBorrowFlag, flagOf_toNat]
  simp only [decide_eq_true_eq]

/-- The difference of two bytes is the integer difference, wrapped (R79, R81). -/
theorem byte_sub_toNat (a b : Byte) : ((a - b).toNat : Int) = (a.toNat - b.toNat : Int) % 256 := by
  have := b.isLt
  rw [BitVec.toNat_sub]
  omega

/-- A logical shift right by one halves the byte (R80). -/
theorem byte_shiftRight_one_toNat (a : Byte) : (a >>> 1).toNat = a.toNat / 2 := by
  rw [BitVec.toNat_ushiftRight, Nat.shiftRight_one]

/-- Settles O27: `LD Vx, Vy` commits `V[y]`. -/
theorem ldRegMovesTheRegister : Obligations.LdRegMovesTheRegister := by
  unfold Obligations.LdRegMovesTheRegister
  refine ⟨fun w h => decodeWord_xy (n := 9) rfl h (by decide), fun x y s => ?_⟩
  exact ⟨s.commit x (s.readV y), rfl, readV_commit_same s x _, pcBy_commit s x _, regFrame_commit s x _⟩

/-- Settles O31: `ADD Vx, Vy` commits the wrapped sum with its carry, the carry last. -/
theorem addRegSetsCarry : Obligations.AddRegSetsCarry := by
  unfold Obligations.AddRegSetsCarry
  refine ⟨fun w h => decodeWord_xy (n := 13) rfl h (by decide), fun x y s => ?_⟩
  refine ⟨s.commitFlag x _ _, rfl, fun hx => ?_, ?_, pcBy_commitFlag s x _ _, regFrame_commitFlag s x _ _⟩
  · rw [readV_commitFlag_dest s _ _ hx, BitVec.toNat_add]
  · rw [readV_commitFlag_vf, carryFlag_toNat]

/-- Settles O32: `SUB Vx, Vy` commits `V[x] - V[y]` with its not-borrow, the not-borrow last. -/
theorem subRegSetsNotBorrow : Obligations.SubRegSetsNotBorrow := by
  unfold Obligations.SubRegSetsNotBorrow
  refine ⟨fun w h => decodeWord_xy (n := 14) rfl h (by decide), fun x y s => ?_⟩
  refine ⟨s.commitFlag x _ _, rfl, fun hx => ?_, ?_, pcBy_commitFlag s x _ _, regFrame_commitFlag s x _ _⟩
  · rw [readV_commitFlag_dest s _ _ hx, byte_sub_toNat]
  · rw [readV_commitFlag_vf, notBorrowFlag_toNat]

/-- Settles O33: `SHR Vx` commits the half of `V[x]` with the bit shifted out, that bit last; its rule reads no `y`. -/
theorem shrShiftsVxAndSetsBitZero : Obligations.ShrShiftsVxAndSetsBitZero := by
  unfold Obligations.ShrShiftsVxAndSetsBitZero
  refine ⟨fun w h => ?_, fun x s => ?_⟩
  · exact ⟨fieldX w, fieldX_val w, decodeWord_of_distinct_before (n := 15) rfl h (by decide)⟩
  · refine ⟨s.commitFlag x _ _, rfl, fun hx => ?_, ?_, pcBy_commitFlag s x _ _, regFrame_commitFlag s x _ _⟩
    · rw [readV_commitFlag_dest s _ _ hx, byte_shiftRight_one_toNat]
    · rw [readV_commitFlag_vf, shiftOutFlag_toNat]

/-- Settles O34: `SUBN Vx, Vy` commits `V[y] - V[x]` with its not-borrow, the not-borrow last. -/
theorem subnRegSetsNotBorrow : Obligations.SubnRegSetsNotBorrow := by
  unfold Obligations.SubnRegSetsNotBorrow
  refine ⟨fun w h => decodeWord_xy (n := 16) rfl h (by decide), fun x y s => ?_⟩
  refine ⟨s.commitFlag x _ _, rfl, fun hx => ?_, ?_, pcBy_commitFlag s x _ _, regFrame_commitFlag s x _ _⟩
  · rw [readV_commitFlag_dest s _ _ hx, byte_sub_toNat]
  · rw [readV_commitFlag_vf, notBorrowFlag_toNat]

end Sys2Proof.Machine
end

section
/-! Decode read backwards: the rule of a decoded instruction, and the words that decode to `CALL` (R52 to R54, R66). -/

namespace Sys2Proof

/-- Every rule of the table builds an instruction with its own mask and pattern (R52). -/
theorem ruleTable_build (w : Word) :
    ∀ r ∈ ruleTable, ruleMask (r.build w) = r.mask ∧ rulePattern (r.build w) = r.pattern := by
  simp [ruleTable, controlRules, immediateRules, aluRules, ruleMask, rulePattern]

/-- A word matches the rule of the instruction it decodes to (R53, R54). -/
theorem decodeWord_matches {w : Word} {i : Instr} (h : decodeWord w = .instr i) : w &&& ruleMask i = rulePattern i := by
  unfold decodeWord at h
  split at h
  next r hfind =>
    obtain rfl := Decoded.instr.inj h
    obtain ⟨hmask, hpattern⟩ := ruleTable_build w r (List.mem_of_find?_eq_some hfind)
    rw [hmask, hpattern]
    exact ruleMatches_iff.mp (List.find?_some (p := fun q => ruleMatches q w) hfind)
  next => cases h

/-- The mask `0xF000` compares the field `op` (R48). -/
theorem mask_op_eq_iff (w : Word) (op : BitVec 4) : w &&& 0xF000 = nibbles op 0 0 0 ↔ fieldOp w = op := by
  obtain ⟨o, x, y, sub, rfl⟩ := word_eq_nibbles w
  rw [nibbles_mask_op, nibbles_inj, fieldOp_nibbles]
  exact and_iff_left ⟨rfl, rfl, rfl⟩

/-- The words that decode to `CALL` are those whose field `op` is 2 (R52). -/
theorem decodeWord_call_iff (w : Word) : (∃ nnn, decodeWord w = .instr (.call nnn)) ↔ fieldOp w = 2 := by
  refine Iff.trans ⟨?_, fun h => ?_⟩ (mask_op_eq_iff w 2)
  · rintro ⟨nnn, hdecode⟩
    exact decodeWord_matches hdecode
  · exact ⟨fieldNNN w, decodeWord_of_distinct_before (n := 3) rfl h (by decide)⟩

/-- The field `op` of a word is the upper half of its first byte (R37, R48). -/
theorem fieldOp_wordOfBytes_toNat (hi lo : Byte) : (fieldOp (wordOfBytes hi lo)).toNat = hi.toNat / 16 := by
  simp only [fieldOp, BitVec.extractLsb'_toNat, wordOfBytes_toNat, Nat.shiftRight_eq_div_pow]
  omega

end Sys2Proof
end

section
/-! The error `StackOverflow` of a step (R66, R85). -/

namespace Sys2Proof.Machine

/-- `CALL` on a full stack is the one handler that answers `StackOverflow` (R85). -/
theorem exec_eq_stackOverflow_iff {i : Instr} {s : State} :
    exec i s = .fault .stackOverflow ↔ (∃ nnn, i = .call nnn) ∧ s.sp.val = 16 := by
  constructor
  · intro h
    obtain ⟨t, hnext⟩ | ⟨nnn, hcall, hsp, -⟩ := exec_cases i s
    · rw [hnext] at h
      cases h
    · exact ⟨⟨nnn, hcall⟩, hsp⟩
  · rintro ⟨⟨nnn, rfl⟩, hsp⟩
    exact execCall_full nnn hsp

/-- A step answers `StackOverflow` exactly on a fetched `CALL` and a full stack: a fetch out of range is another fault,
and the unknown-opcode path completes (R83, R85). -/
theorem step_eq_stackOverflow_iff {s : State} : step s = .fault .stackOverflow ↔ CallOnFullStack s := by
  constructor
  · intro h
    cases hfetch : s.fetch with
    | none =>
      rw [step_of_fetch_none hfetch] at h
      cases h
    | some w =>
      cases hdecode : decodeWord w with
      | instr i =>
        rw [step_of_instr hfetch hdecode] at h
        obtain ⟨⟨nnn, rfl⟩, hsp⟩ := exec_eq_stackOverflow_iff.mp h
        exact ⟨hsp, w, hfetch, (decodeWord_call_iff w).mp ⟨nnn, hdecode⟩⟩
      | unknownOpcode u =>
        rw [step_of_unknown hfetch hdecode] at h
        cases h
  · rintro ⟨hsp, w, hfetch, hop⟩
    obtain ⟨nnn, hdecode⟩ := (decodeWord_call_iff w).mpr hop
    rw [step_of_instr hfetch hdecode]
    exact exec_eq_stackOverflow_iff.mpr ⟨⟨nnn, rfl⟩, hsp⟩

/-- `CALL` on a full stack as the range check, `sp` and the byte at `pc` decide it (R35, R36, R66). -/
theorem callOnFullStack_iff {s : State} :
    CallOnFullStack s ↔ s.pc.toNat + 1 < s.config.memorySize ∧ s.sp.val = 16 ∧
      (Memory.readByte s.memory s.pc.toNat).toNat / 16 = 2 := by
  constructor
  · rintro ⟨hsp, w, hfetch, hop⟩
    obtain ⟨hrange, rfl⟩ := fetch_eq_some.mp hfetch
    exact ⟨hrange, hsp, (fieldOp_wordOfBytes_toNat _ _).symm.trans (congrArg BitVec.toNat hop)⟩
  · rintro ⟨hrange, hsp, hop⟩
    exact ⟨hsp, _, fetch_eq_some.mpr ⟨hrange, rfl⟩,
      BitVec.eq_of_toNat_eq ((fieldOp_wordOfBytes_toNat _ _).trans hop)⟩

/-- The report of a step that answers `StackOverflow` keeps the state and has no event (R84, R91). -/
theorem stepReport_of_stackOverflow {s : State} (h : step s = .fault .stackOverflow) :
    stepReport s = { state := s, reply := .stackOverflow, event := none } := by
  simp only [stepReport, h]

/-- Settles O13: a step overflows exactly on a `CALL` at a full stack, and `CALL` is the one handler that can. -/
theorem stackOverflowExactly : Obligations.StackOverflowExactly := by
  unfold Obligations.StackOverflowExactly
  exact ⟨fun s => step_eq_stackOverflow_iff.trans callOnFullStack_iff,
    fun i s => exec_eq_stackOverflow_iff.mp, fun s => stepReport_of_stackOverflow⟩

end Sys2Proof.Machine
end

section
/-! Bytes copied to memory, the loaded image in terms of them, and the first fetch (R100, R102). -/

namespace Sys2Proof.Machine

/-- Copying a sequence of bytes changes no byte outside their addresses (R100). -/
theorem readByte_writeBytes_outside {m : Memory} (a : Nat) {a' : Nat} (bs : List Byte) (hm : Memory.wf m = true)
    (hout : a' < a ∨ a + bs.length ≤ a') :
    Memory.readByte (Memory.writeBytes m a bs) a' = Memory.readByte m a' := by
  induction bs generalizing m a with
  | nil => rfl
  | cons b bs ih =>
    rw [List.length_cons] at hout
    rw [Memory.writeBytes, ih (a + 1) (wf_writeByte a b hm) (by omega), readByte_writeByte a a' b hm,
      if_neg (by omega)]

/-- Copying a sequence of bytes leaves byte `k` of it at `a + k` (R100). -/
theorem readByte_writeBytes_getElem? {m : Memory} (a : Nat) {bs : List Byte} {k : Nat} {b : Byte}
    (hm : Memory.wf m = true) (hk : bs[k]? = some b) :
    Memory.readByte (Memory.writeBytes m a bs) (a + k) = b := by
  induction bs generalizing m a k with
  | nil => cases hk
  | cons c bs ih =>
    have hm' := wf_writeByte a c hm
    cases k with
    | zero =>
      obtain rfl := Option.some.inj hk
      rw [Nat.add_zero, Memory.writeBytes, readByte_writeBytes_outside (a + 1) bs hm' (by omega),
        readByte_writeByte a a c hm, if_pos rfl]
    | succ k =>
      have haddr : a + (k + 1) = a + 1 + k := by omega
      rw [Memory.writeBytes, haddr]
      exact ih (a + 1) hm' hk

/-- The reset state of given parameters with an image at `LOAD_OFFSET`: what a load leaves (R100). -/
def State.withImage (c : Config) (bytes : List Byte) : State :=
  { State.ofConfig c with memory := Memory.writeBytes [] c.loadOffset bytes }

section WithImage
variable (c : Config) (bytes : List Byte)

@[simp] theorem withImage_config : (State.withImage c bytes).config = c := rfl

@[simp] theorem withImage_clear_memory : { State.withImage c bytes with memory := [] } = State.ofConfig c := rfl

theorem withImage_pc_toNat {c : Config} (hc : c.Legal) : (State.withImage c bytes).pc.toNat = c.loadOffset :=
  ofConfig_pc_toNat hc

theorem readByte_withImage_getElem? {bytes : List Byte} {k : Nat} {b : Byte} (hk : bytes[k]? = some b) :
    Memory.readByte (State.withImage c bytes).memory (c.loadOffset + k) = b :=
  readByte_writeBytes_getElem? c.loadOffset wf_nil hk

theorem readByte_withImage_outside {a : Nat} (hout : a < c.loadOffset ∨ c.loadOffset + bytes.length ≤ a) :
    Memory.readByte (State.withImage c bytes).memory a = 0 :=
  readByte_writeBytes_outside c.loadOffset bytes wf_nil hout

end WithImage

/-- `load_program` succeeds exactly on an image that fits behind `LOAD_OFFSET`, with the image in the reset state
(R100). -/
theorem loadProgram_eq_loaded_iff {s t : State} {bytes : List Byte} :
    s.loadProgram bytes = .loaded t ↔
      s.config.loadOffset + bytes.length ≤ s.config.memorySize ∧ t = State.withImage s.config bytes := by
  unfold State.loadProgram
  split
  next hlarge => exact ⟨nofun, fun ⟨hfit, _⟩ => absurd hfit (Nat.not_le.mpr hlarge)⟩
  next hfit =>
    exact ⟨fun h => ⟨Nat.not_lt.mp hfit, (LoadResult.loaded.inj h).symm⟩, fun ⟨_, ht⟩ => congrArg _ ht.symm⟩

/-- `load_program` fails on an image that reaches past the end of memory (R100). -/
theorem loadProgram_of_too_large {s : State} {bytes : List Byte}
    (h : s.config.memorySize < s.config.loadOffset + bytes.length) :
    s.loadProgram bytes = .failed .programTooLarge := by
  rw [State.loadProgram, if_pos h]

theorem transact_loadProgram_of_loaded {s t : State} {bytes : List Byte} (h : s.loadProgram bytes = .loaded t) :
    transact s (.loadProgram bytes) = { state := t, reply := .ok, event := none } := by
  simp only [transact, loadReport, h]

theorem transact_loadProgram_of_failed {s : State} {bytes : List Byte}
    (h : s.loadProgram bytes = .failed .programTooLarge) :
    transact s (.loadProgram bytes) = { state := s, reply := .programTooLarge, event := none } := by
  simp only [transact, loadReport, h]

/-- Settles O50: the size check decides, and a load that passes it leaves the image in the reset state. -/
theorem loadProgramChecksResetsAndCopies : Obligations.LoadProgramChecksResetsAndCopies := by
  unfold Obligations.LoadProgramChecksResetsAndCopies
  intro s bytes hlegal
  have ⟨hoffset, _, _⟩ := hlegal
  refine ⟨fun hlarge => ?_, fun hfits => ?_⟩
  · have hfailed : s.loadProgram bytes = .failed .programTooLarge := loadProgram_of_too_large (by omega)
    exact ⟨hfailed, by rw [transact_loadProgram_of_failed hfailed]⟩
  · have hloaded : s.loadProgram bytes = .loaded (State.withImage s.config bytes) :=
      loadProgram_eq_loaded_iff.mpr ⟨by omega, rfl⟩
    refine ⟨_, hloaded, by rw [transact_loadProgram_of_loaded hloaded],
      fun k b => readByte_withImage_getElem? s.config, fun a => readByte_withImage_outside s.config bytes, ?_, rfl⟩
    rw [withImage_clear_memory]
    exact resetValues_ofConfig hlegal

/-- A fetch whose address `a` is in range answers the bytes at `a` and `a + 1` (R35, R36). -/
theorem fetch_toNat_of_pc {s : State} {a : Nat} (hpc : s.pc.toNat = a) (hrange : a + 1 < s.config.memorySize) :
    ∃ w, s.fetch = some w ∧
      w.toNat = (Memory.readByte s.memory a).toNat * 256 + (Memory.readByte s.memory (a + 1)).toNat := by
  subst hpc
  exact ⟨_, fetch_eq_some.mpr ⟨hrange, rfl⟩, wordOfBytes_toNat _ _⟩

/-- The reset state fetches the word 0 where two bytes fit, since its memory is 0 (R31, R102). -/
theorem fetch_ofConfig {c : Config} (hc : c.Legal) (hrange : c.loadOffset + 1 < c.memorySize) :
    (State.ofConfig c).fetch = some 0x0000 := by
  have hword : wordOfBytes 0#8 0#8 = 0x0000 := by decide
  refine fetch_eq_some.mpr ⟨?_, ?_⟩
  · rw [ofConfig_pc_toNat hc]
    exact hrange
  · rw [ofConfig_memory, readByte_nil, readByte_nil, hword]

/-- Settles O51: the states that construction, `reset` and a load leave have `pc` at `LOAD_OFFSET`, and the fetch
answers the bytes there. -/
theorem firstFetchIsAtTheLoadOffset : Obligations.FirstFetchIsAtTheLoadOffset := by
  unfold Obligations.FirstFetchIsAtTheLoadOffset
  refine ⟨fun m o p t ht => ?_, fun s hs => ?_, fun s t bytes hs ht => ?_⟩
  · obtain ⟨hlegal, rfl⟩ := construct_eq_some_iff.mp ht
    exact ⟨ofConfig_pc_toNat hlegal, fetch_ofConfig hlegal⟩
  · rw [doReset_eq_ofConfig]
    exact ⟨ofConfig_pc_toNat hs, fetch_ofConfig hs⟩
  · obtain ⟨hfits, rfl⟩ := loadProgram_eq_loaded_iff.mp ht
    have hpc := withImage_pc_toNat bytes hs
    refine ⟨hpc, fun b0 b1 rest hbytes => ?_, fetch_toNat_of_pc hpc⟩
    subst hbytes
    rw [List.length_cons, List.length_cons] at hfits
    obtain ⟨w, hfetch, hw⟩ := fetch_toNat_of_pc hpc (by rw [withImage_config]; omega)
    have hfirst := readByte_withImage_getElem? s.config (bytes := b0 :: b1 :: rest) (k := 0) rfl
    have hsecond := readByte_withImage_getElem? s.config (bytes := b0 :: b1 :: rest) (k := 1) rfl
    rw [Nat.add_zero] at hfirst
    rw [hfirst, hsecond] at hw
    exact ⟨w, hfetch, hw⟩

end Sys2Proof.Machine
end

section
/-! A word as the encoding of its own fields (R48, R49). -/

namespace Sys2Proof

theorem encodeNNN_fields (w : Word) : encodeNNN (fieldOp w) (fieldNNN w) = w := by
  obtain ⟨op, x, y, sub, rfl⟩ := word_eq_nibbles w
  rw [fieldOp_nibbles, fieldNNN_nibbles, encodeNNN]
  apply BitVec.eq_of_toNat_eq
  rw [append_toNat, append_toNat, append_toNat, nibbles_toNat]
  omega

theorem encodeXKK_fields (w : Word) : encodeXKK (fieldOp w) (fieldX w) (fieldKK w) = w := by
  obtain ⟨op, x, y, sub, rfl⟩ := word_eq_nibbles w
  rw [fieldOp_nibbles, fieldX_nibbles, fieldKK_nibbles, encodeXKK, bitsOfReg_regOfBits]
  apply BitVec.eq_of_toNat_eq
  rw [append_toNat, append_toNat, append_toNat, nibbles_toNat]
  omega

theorem encodeXY_fields (w : Word) : encodeXY (fieldOp w) (fieldX w) (fieldY w) (fieldSub w) = w := by
  obtain ⟨op, x, y, sub, rfl⟩ := word_eq_nibbles w
  rw [fieldOp_nibbles, fieldX_nibbles, fieldY_nibbles, fieldSub_nibbles, encodeXY_nibbles, bitsOfReg_regOfBits,
    bitsOfReg_regOfBits, nibbles]

/-- The mask `0xF00F` compares the fields `op` and `sub` (R48). -/
theorem mask_op_sub_eq_iff (w : Word) (op sub : BitVec 4) :
    w &&& 0xF00F = nibbles op 0 0 sub ↔ fieldOp w = op ∧ fieldSub w = sub := by
  obtain ⟨o, x, y, n, rfl⟩ := word_eq_nibbles w
  rw [nibbles_mask_op_sub, nibbles_inj, fieldOp_nibbles, fieldSub_nibbles]
  exact ⟨fun ⟨ho, _, _, hn⟩ => ⟨ho, hn⟩, fun ⟨ho, hn⟩ => ⟨ho, rfl, rfl, hn⟩⟩

/-- A word that matches a rule of format NNN is the encoding of its field `nnn` (R49). -/
theorem encodeNNN_of_match {w : Word} {op : BitVec 4} (h : w &&& 0xF000 = nibbles op 0 0 0) :
    encodeNNN op (fieldNNN w) = w := by
  rw [← (mask_op_eq_iff w op).mp h, encodeNNN_fields]

/-- A word that matches a rule of format XKK is the encoding of its fields `x` and `kk` (R49). -/
theorem encodeXKK_of_match {w : Word} {op : BitVec 4} (h : w &&& 0xF000 = nibbles op 0 0 0) :
    encodeXKK op (fieldX w) (fieldKK w) = w := by
  rw [← (mask_op_eq_iff w op).mp h, encodeXKK_fields]

/-- A word that matches a rule of format XY is the encoding of its fields `x` and `y` (R49). -/
theorem encodeXY_of_match {w : Word} {op sub : BitVec 4} (h : w &&& 0xF00F = nibbles op 0 0 sub) :
    encodeXY op (fieldX w) (fieldY w) sub = w := by
  obtain ⟨hop, hsub⟩ := (mask_op_sub_eq_iff w op sub).mp h
  rw [← hop, ← hsub, encodeXY_fields]

/-- Encoding the field `x` of such a word with `y = 0` clears the nibble of `y` (R62). -/
theorem encodeXY_zero_of_match {w : Word} {op sub : BitVec 4} (h : w &&& 0xF00F = nibbles op 0 0 sub) :
    encodeXY op (fieldX w) 0 sub = w &&& 0xFF0F := by
  obtain ⟨o, x, y, n, rfl⟩ := word_eq_nibbles w
  obtain ⟨rfl, -, -, rfl⟩ := nibbles_inj.mp ((nibbles_mask_op_sub o x y n).symm.trans h)
  have hmask : nibbles o x y n &&& nibbles 0xF 0xF 0 0xF = nibbles o x 0 n := by
    rw [nibbles_and, nibbles_inj]
    exact ⟨BitVec.and_allOnes, BitVec.and_allOnes, BitVec.and_zero, BitVec.and_allOnes⟩
  rw [encodeXY_nibbles, fieldX_nibbles, bitsOfReg_regOfBits]
  exact hmask.symm

end Sys2Proof
end

section
/-! Decode as an equation to solve: the words that decode to a given instruction (R52 to R62). -/

namespace Sys2Proof

/-- The instruction of the same rule with the operands that the fields of `w` have (R48, R52). -/
def Instr.readFrom (w : Word) : Instr → Instr
  | .ret => .ret
  | .sys _ => .sys (fieldNNN w)
  | .jp _ => .jp (fieldNNN w)
  | .call _ => .call (fieldNNN w)
  | .seByte _ _ => .seByte (fieldX w) (fieldKK w)
  | .sneByte _ _ => .sneByte (fieldX w) (fieldKK w)
  | .seReg _ _ => .seReg (fieldX w) (fieldY w)
  | .ldByte _ _ => .ldByte (fieldX w) (fieldKK w)
  | .addByte _ _ => .addByte (fieldX w) (fieldKK w)
  | .ldReg _ _ => .ldReg (fieldX w) (fieldY w)
  | .orReg _ _ => .orReg (fieldX w) (fieldY w)
  | .andReg _ _ => .andReg (fieldX w) (fieldY w)
  | .xorReg _ _ => .xorReg (fieldX w) (fieldY w)
  | .addReg _ _ => .addReg (fieldX w) (fieldY w)
  | .subReg _ _ => .subReg (fieldX w) (fieldY w)
  | .shr _ => .shr (fieldX w)
  | .subnReg _ _ => .subnReg (fieldX w) (fieldY w)

/-- Every rule of the table takes its operands from the fields of the word (R52). -/
theorem ruleTable_build_readFrom (w : Word) : ∀ r ∈ ruleTable, (r.build w).readFrom w = r.build w := by
  simp [ruleTable, controlRules, immediateRules, aluRules, Instr.readFrom]

theorem readFrom_of_decodeWord {w : Word} {i : Instr} (h : decodeWord w = .instr i) : i.readFrom w = i := by
  unfold decodeWord at h
  split at h
  next r hfind =>
    obtain rfl := Decoded.instr.inj h
    exact ruleTable_build_readFrom w r (List.mem_of_find?_eq_some hfind)
  next => cases h

/-- The words that decode to `RET` (R54, R64). -/
theorem decodeWord_ret_iff {w : Word} : decodeWord w = .instr .ret ↔ w = 0x00EE := by
  constructor
  · intro h
    exact (word_mask_all w).symm.trans (decodeWord_matches h)
  · rintro rfl
    exact decodeWord_of_distinct_before (n := 0) rfl rfl (by decide)

/-- A word of the rule `SYS` has the operand `0x0EE` only where it is the word of `RET` (R54). -/
theorem eq_00EE_of_fieldNNN {w : Word} (h : w &&& 0xF000 = 0x0000) (hfield : fieldNNN w = 0x0EE) : w = 0x00EE := by
  rw [← encodeNNN_of_match (op := 0) h, hfield]
  rfl

/-- Decode answers the instruction of the rule of `i` on every word that matches that rule, but for the one word that
`RET` takes from `SYS` (R54). -/
theorem decodeWord_of_match {w : Word} (i : Instr) (hwf : (i.readFrom w).wf = true)
    (h : w &&& ruleMask i = rulePattern i) : decodeWord w = .instr (i.readFrom w) := by
  cases i with
  | ret => exact decodeWord_of_distinct_before (n := 0) rfl h (by decide)
  | sys nnn =>
    refine decodeWord_sys h fun hret => ?_
    subst hret
    exact absurd hwf Bool.false_ne_true
  | jp nnn => exact decodeWord_of_distinct_before (n := 2) rfl h (by decide)
  | call nnn => exact decodeWord_of_distinct_before (n := 3) rfl h (by decide)
  | seByte x kk => exact decodeWord_of_distinct_before (n := 4) rfl h (by decide)
  | sneByte x kk => exact decodeWord_of_distinct_before (n := 5) rfl h (by decide)
  | seReg x y => exact decodeWord_of_distinct_before (n := 6) rfl h (by decide)
  | ldByte x kk => exact decodeWord_of_distinct_before (n := 7) rfl h (by decide)
  | addByte x kk => exact decodeWord_of_distinct_before (n := 8) rfl h (by decide)
  | ldReg x y => exact decodeWord_of_distinct_before (n := 9) rfl h (by decide)
  | orReg x y => exact decodeWord_of_distinct_before (n := 10) rfl h (by decide)
  | andReg x y => exact decodeWord_of_distinct_before (n := 11) rfl h (by decide)
  | xorReg x y => exact decodeWord_of_distinct_before (n := 12) rfl h (by decide)
  | addReg x y => exact decodeWord_of_distinct_before (n := 13) rfl h (by decide)
  | subReg x y => exact decodeWord_of_distinct_before (n := 14) rfl h (by decide)
  | shr x => exact decodeWord_of_distinct_before (n := 15) rfl h (by decide)
  | subnReg x y => exact decodeWord_of_distinct_before (n := 16) rfl h (by decide)

/-- A decoded instruction is well-formed: the one word whose `SYS` would not be is the word of `RET` (R54, R62). -/
theorem wf_of_decodeWord {w : Word} {i : Instr} (h : decodeWord w = .instr i) : i.wf = true := by
  cases i with
  | sys nnn =>
    refine bne_iff_ne.mpr fun hnnn => ?_
    obtain rfl := Instr.sys.inj (readFrom_of_decodeWord h)
    have hret := decodeWord_ret_iff.mpr (eq_00EE_of_fieldNNN (decodeWord_matches h) hnnn)
    rw [hret] at h
    cases h
  | _ => rfl

/-- A word decodes to `i` exactly where `i` is well-formed, the word matches the rule of `i`, and the operands of `i`
are the fields of the word (R52 to R54). -/
theorem decodeWord_eq_instr_iff {w : Word} {i : Instr} :
    decodeWord w = .instr i ↔ i.wf = true ∧ w &&& ruleMask i = rulePattern i ∧ i.readFrom w = i := by
  constructor
  · exact fun h => ⟨wf_of_decodeWord h, decodeWord_matches h, readFrom_of_decodeWord h⟩
  · rintro ⟨hwf, hmatch, hread⟩
    have hdecode := decodeWord_of_match i (hread.symm ▸ hwf) hmatch
    rwa [hread] at hdecode

/-! ### The fields of an encoded word -/

theorem fieldNNN_encodeNNN (op : BitVec 4) (nnn : Addr) : fieldNNN (encodeNNN op nnn) = nnn := by
  rw [encodeNNN_nibbles, fieldNNN_nibbles, addr_nibbles]

theorem fieldX_encodeXKK (op : BitVec 4) (x : Reg) (kk : Byte) : fieldX (encodeXKK op x kk) = x := by
  rw [encodeXKK_nibbles, fieldX_nibbles, regOfBits_bitsOfReg]

theorem fieldKK_encodeXKK (op : BitVec 4) (x : Reg) (kk : Byte) : fieldKK (encodeXKK op x kk) = kk := by
  rw [encodeXKK_nibbles, fieldKK_nibbles, byte_nibbles]

theorem fieldX_encodeXY (op : BitVec 4) (x y : Reg) (sub : BitVec 4) : fieldX (encodeXY op x y sub) = x := by
  rw [encodeXY_nibbles, fieldX_nibbles, regOfBits_bitsOfReg]

theorem fieldY_encodeXY (op : BitVec 4) (x y : Reg) (sub : BitVec 4) : fieldY (encodeXY op x y sub) = y := by
  rw [encodeXY_nibbles, fieldY_nibbles, regOfBits_bitsOfReg]

/-- Encoding puts every operand where decode reads it (R48, R49). -/
theorem readFrom_encode (i : Instr) : i.readFrom (encode i) = i := by
  cases i <;> simp [Instr.readFrom, encode, fieldNNN_encodeNNN, fieldX_encodeXKK, fieldKK_encodeXKK, fieldX_encodeXY,
    fieldY_encodeXY]

/-- The word of every instruction matches the instruction's own rule (R52, R53). -/
theorem encode_matches (i : Instr) : encode i &&& ruleMask i = rulePattern i := by
  cases i with
  | ret => exact Laws.EncodeMatches.ret
  | sys nnn => exact Laws.EncodeMatches.sys nnn
  | jp nnn => exact Laws.EncodeMatches.jp nnn
  | call nnn => exact Laws.EncodeMatches.call nnn
  | seByte x kk => exact Laws.EncodeMatches.seByte x kk
  | sneByte x kk => exact Laws.EncodeMatches.sneByte x kk
  | seReg x y => exact Laws.EncodeMatches.seReg x y
  | ldByte x kk => exact Laws.EncodeMatches.ldByte x kk
  | addByte x kk => exact Laws.EncodeMatches.addByte x kk
  | ldReg x y => exact Laws.EncodeMatches.ldReg x y
  | orReg x y => exact Laws.EncodeMatches.orReg x y
  | andReg x y => exact Laws.EncodeMatches.andReg x y
  | xorReg x y => exact Laws.EncodeMatches.xorReg x y
  | addReg x y => exact Laws.EncodeMatches.addReg x y
  | subReg x y => exact Laws.EncodeMatches.subReg x y
  | shr x => exact Laws.EncodeMatches.shr x
  | subnReg x y => exact Laws.EncodeMatches.subnReg x y

/-- Settles O1: the word of `i` matches the rule of `i` and holds its operands, which decides its decode. -/
theorem decodeOfEncodeIsIdentity : Obligations.DecodeOfEncodeIsIdentity := by
  unfold Obligations.DecodeOfEncodeIsIdentity
  exact fun i hwf => decodeWord_eq_instr_iff.mpr ⟨hwf, encode_matches i, readFrom_encode i⟩

end Sys2Proof
end

section
/-! Encoding a decoded instruction (R61, R62). -/

namespace Sys2Proof

/-- A word that matches the rule of `i` is the encoding of its own operands under that rule, but for the nibble of `y`
that `SHR` does not read (R60). -/
theorem encode_readFrom {w : Word} {i : Instr} (h : w &&& ruleMask i = rulePattern i) (hshr : ∀ x, i ≠ .shr x) :
    encode (i.readFrom w) = w := by
  cases i with
  | ret => exact h.symm.trans (word_mask_all w)
  | sys nnn => exact encodeNNN_of_match h
  | jp nnn => exact encodeNNN_of_match h
  | call nnn => exact encodeNNN_of_match h
  | seByte x kk => exact encodeXKK_of_match h
  | sneByte x kk => exact encodeXKK_of_match h
  | seReg x y => exact encodeXY_of_match h
  | ldByte x kk => exact encodeXKK_of_match h
  | addByte x kk => exact encodeXKK_of_match h
  | ldReg x y => exact encodeXY_of_match h
  | orReg x y => exact encodeXY_of_match h
  | andReg x y => exact encodeXY_of_match h
  | xorReg x y => exact encodeXY_of_match h
  | addReg x y => exact encodeXY_of_match h
  | subReg x y => exact encodeXY_of_match h
  | shr x => exact absurd rfl (hshr x)
  | subnReg x y => exact encodeXY_of_match h

/-- Settles O2: a decoded instruction holds the operands that its word encodes. -/
theorem encodeOfDecodeIsTheWord : Obligations.EncodeOfDecodeIsTheWord := by
  unfold Obligations.EncodeOfDecodeIsTheWord
  intro w i hdecode
  obtain ⟨hwf, hmatch, hread⟩ := decodeWord_eq_instr_iff.mp hdecode
  refine ⟨hwf, fun hshr => ?_, ?_⟩
  · rw [← encode_readFrom hmatch hshr, hread]
  · rintro ⟨x, rfl⟩
    rw [← hread]
    exact encodeXY_zero_of_match hmatch

end Sys2Proof
end

section
/-! The overlap of rules, the decision tree, the words that no rule matches (30_encoding.md sections 2 and 3), and a
few words of the tables. -/

namespace Sys2Proof

open Machine

/-- The patterns of two different rules agree on the bits that both compare only for the first two rules, `RET` and
`SYS`. -/
theorem rules_agree_only_first_two :
    ∀ n < 17, ∀ m < n, ∀ r ∈ ruleTable[n]?, ∀ q ∈ ruleTable[m]?, q.pattern &&& r.mask = r.pattern &&& q.mask →
      m = 0 ∧ n = 1 := by
  decide

/-- Settles O4: only the first two rules agree on the bits both compare, and the first one compares every bit. -/
theorem onlyRetAndSysOverlap : Obligations.OnlyRetAndSysOverlap := by
  unfold Obligations.OnlyRetAndSysOverlap
  intro w m n q r hmn hq hr hqmatch hrmatch
  have hn : n < 17 := (List.getElem?_eq_some_iff.mp hr).1
  obtain ⟨rfl, rfl⟩ := rules_agree_only_first_two n hn m hmn r hr q hq (patterns_agree hqmatch hrmatch)
  obtain rfl := Option.some.inj hq
  exact ⟨rfl, rfl, (word_mask_all w).symm.trans hqmatch⟩

theorem fieldOp_toNat (w : Word) : (fieldOp w).toNat = w.toNat / 4096 := by
  have := w.isLt
  rw [fieldOp, BitVec.extractLsb'_toNat, Nat.shiftRight_eq_div_pow]
  omega

theorem fieldSub_toNat (w : Word) : (fieldSub w).toNat = w.toNat % 16 := by
  rw [fieldSub, BitVec.extractLsb'_toNat, Nat.shiftRight_zero]

/-- The mask `0xF000` compares `w / 4096` (R48). -/
theorem mask_op_iff_div (w : Word) (op : BitVec 4) : w &&& 0xF000 = nibbles op 0 0 0 ↔ w.toNat / 4096 = op.toNat := by
  rw [mask_op_eq_iff, ← BitVec.toNat_inj, fieldOp_toNat]

/-- The mask `0xF00F` compares `w / 4096` and `w mod 16` (R48). -/
theorem mask_op_sub_iff_div_mod (w : Word) (op sub : BitVec 4) :
    w &&& 0xF00F = nibbles op 0 0 sub ↔ w.toNat / 4096 = op.toNat ∧ w.toNat % 16 = sub.toNat := by
  rw [mask_op_sub_eq_iff, ← BitVec.toNat_inj, ← BitVec.toNat_inj, fieldOp_toNat, fieldSub_toNat]

/-- The nibbles of a word that no rule covers (30_encoding.md section 3). -/
def UncoveredNibbles (w : Word) : Prop :=
  (w.toNat / 4096 = 5 ∧ w.toNat % 16 ≠ 0) ∨ (w.toNat / 4096 = 8 ∧ 8 ≤ w.toNat % 16) ∨ 9 ≤ w.toNat / 4096

/-- Decode rejects a word that differs from every rule in a bit that the mask `m` keeps and the rule compares. -/
theorem decodeWord_of_distinct_masked {w m p : Word} (h : w &&& m = p)
    (hdistinct : ∀ q ∈ ruleTable, q.pattern &&& m ≠ p &&& q.mask) : decodeWord w = .unknownOpcode w :=
  decodeWord_of_no_match fun _ r hr hmatch => hdistinct r (List.mem_of_getElem? hr) (patterns_agree hmatch h)

/-- A word `0x8xyN` with `N` from 8 differs from every rule in a bit of `0xF00F` that the rule compares. -/
theorem op_eight_sub_ge_eight_distinct :
    ∀ sub : BitVec 4, 8 ≤ sub.toNat → ∀ q ∈ ruleTable, q.pattern &&& 0xF00F ≠ nibbles 8 0 0 sub &&& q.mask := by
  decide

/-- A word from `0x9000` on differs from every rule in a bit of `0xF000` that the rule compares. -/
theorem op_ge_nine_distinct :
    ∀ op : BitVec 4, 9 ≤ op.toNat → ∀ q ∈ ruleTable, q.pattern &&& 0xF000 ≠ nibbles op 0 0 0 &&& q.mask := by
  decide

/-- No rule matches a word with uncovered nibbles (R58). -/
theorem decodeWord_of_uncovered {w : Word} (h : UncoveredNibbles w) : decodeWord w = .unknownOpcode w := by
  obtain ⟨hop, hsub⟩ | ⟨hop, hsub⟩ | hop := h
  · exact decodeWord_unknown_of_op_five hop hsub
  · have hmask : w &&& 0xF00F = nibbles 8 0 0 (fieldSub w) :=
      (mask_op_sub_iff_div_mod w 8 _).mpr ⟨hop, (fieldSub_toNat w).symm⟩
    exact decodeWord_of_distinct_masked hmask (op_eight_sub_ge_eight_distinct _ (by rwa [fieldSub_toNat]))
  · have hmask : w &&& 0xF000 = nibbles (fieldOp w) 0 0 0 := (mask_op_eq_iff w _).mpr rfl
    exact decodeWord_of_distinct_masked hmask (op_ge_nine_distinct _ (by rwa [fieldOp_toNat]))

/-- A leaf of the decision tree holds the decode of its words, or the word itself where the nibbles are uncovered. -/
theorem decisionTree_cases (w : Word) :
    decodeWord w = decisionTree w ∧ (∃ i, decisionTree w = .instr i) ∨
      decisionTree w = .unknownOpcode w ∧ UncoveredNibbles w := by
  unfold decisionTree
  split
  next hop =>
    split
    next hret => exact .inl ⟨decodeWord_ret_iff.mpr hret, _, rfl⟩
    next hret => exact .inl ⟨decodeWord_sys ((mask_op_iff_div w 0).mpr hop) hret, _, rfl⟩
  next hop => exact .inl ⟨decodeWord_of_match (.jp 0) rfl ((mask_op_iff_div w 1).mpr hop), _, rfl⟩
  next hop => exact .inl ⟨decodeWord_of_match (.call 0) rfl ((mask_op_iff_div w 2).mpr hop), _, rfl⟩
  next hop => exact .inl ⟨decodeWord_of_match (.seByte 0 0) rfl ((mask_op_iff_div w 3).mpr hop), _, rfl⟩
  next hop => exact .inl ⟨decodeWord_of_match (.sneByte 0 0) rfl ((mask_op_iff_div w 4).mpr hop), _, rfl⟩
  next hop =>
    split
    next hsub =>
      exact .inl ⟨decodeWord_of_match (.seReg 0 0) rfl ((mask_op_sub_iff_div_mod w 5 0).mpr ⟨hop, hsub⟩), _, rfl⟩
    next hsub => exact .inr ⟨rfl, .inl ⟨hop, hsub⟩⟩
  next hop => exact .inl ⟨decodeWord_of_match (.ldByte 0 0) rfl ((mask_op_iff_div w 6).mpr hop), _, rfl⟩
  next hop => exact .inl ⟨decodeWord_of_match (.addByte 0 0) rfl ((mask_op_iff_div w 7).mpr hop), _, rfl⟩
  next hop =>
    have hmask (sub : BitVec 4) (hsub : w.toNat % 16 = sub.toNat) : w &&& 0xF00F = nibbles 8 0 0 sub :=
      (mask_op_sub_iff_div_mod w 8 sub).mpr ⟨hop, hsub⟩
    split
    next hsub => exact .inl ⟨decodeWord_of_match (.ldReg 0 0) rfl (hmask 0 hsub), _, rfl⟩
    next hsub => exact .inl ⟨decodeWord_of_match (.orReg 0 0) rfl (hmask 1 hsub), _, rfl⟩
    next hsub => exact .inl ⟨decodeWord_of_match (.andReg 0 0) rfl (hmask 2 hsub), _, rfl⟩
    next hsub => exact .inl ⟨decodeWord_of_match (.xorReg 0 0) rfl (hmask 3 hsub), _, rfl⟩
    next hsub => exact .inl ⟨decodeWord_of_match (.addReg 0 0) rfl (hmask 4 hsub), _, rfl⟩
    next hsub => exact .inl ⟨decodeWord_of_match (.subReg 0 0) rfl (hmask 5 hsub), _, rfl⟩
    next hsub => exact .inl ⟨decodeWord_of_match (.shr 0) rfl (hmask 6 hsub), _, rfl⟩
    next hsub => exact .inl ⟨decodeWord_of_match (.subnReg 0 0) rfl (hmask 7 hsub), _, rfl⟩
    next =>
      have hsub : 8 ≤ w.toNat % 16 := by
        simp only [imp_false] at *
        omega
      exact .inr ⟨rfl, .inr (.inl ⟨hop, hsub⟩)⟩
  next =>
    have hop : 9 ≤ w.toNat / 4096 := by
      simp only [imp_false] at *
      omega
    exact .inr ⟨rfl, .inr (.inr hop)⟩

/-- Settles O5: at a leaf with an instruction the tree's path is the rule's match, and at every other leaf the nibbles
are uncovered. -/
theorem decodeEqualsDecisionTree : Obligations.DecodeEqualsDecisionTree := by
  unfold Obligations.DecodeEqualsDecisionTree
  intro w
  obtain ⟨heq, -⟩ | ⟨htree, huncovered⟩ := decisionTree_cases w
  · exact heq
  · rw [decodeWord_of_uncovered huncovered, htree]

/-- Settles O6: the tree rejects only words with uncovered nibbles, and no rule matches those. -/
theorem unknownWordsAreExactly : Obligations.UnknownWordsAreExactly := by
  unfold Obligations.UnknownWordsAreExactly
  refine fun w => ⟨fun hunknown => ?_, decodeWord_of_uncovered⟩
  obtain ⟨heq, i, htree⟩ | ⟨-, huncovered⟩ := decisionTree_cases w
  · rw [hunknown, htree] at heq
    cases heq
  · exact huncovered

/-- Settles O7: the seven words, decoded. -/
theorem sampleWordsDecode : Obligations.SampleWordsDecode := by
  unfold Obligations.SampleWordsDecode
  decide

end Sys2Proof
end

section
/-! What a handler that goes on leaves, said once: the frame of every instruction (R63 to R82). -/

namespace Sys2Proof.Machine

/-- What `CALL` leaves where `n` is the first free slot: `pc + 2` in that slot, and `pc` at the target (R66). -/
def State.callTo (s : State) (n : Fin 16) (nnn : Addr) : State :=
  State.setPc { s with stack := s.stack.set n.val (s.pcPlus 2), sp := n.succ } (targetOf nnn)

/-- What `RET` leaves where `n` is the last occupied slot: `pc` at the entry there, which keeps its value (R64). -/
def State.returnTo (s : State) (n : Fin 16) : State := State.setPc { s with sp := n.castSucc } s.stack[n.val]

theorem execCall_callTo (nnn : Addr) {s : State} {n : Fin 16} (h : s.sp.val = n.val) :
    execCall nnn s = .next (s.callTo n nnn) := by
  obtain ⟨n, hn⟩ := n
  obtain rfl : s.sp.val = n := h
  exact execCall_of_lt nnn hn

theorem execRet_returnTo {s : State} {n : Fin 16} (h : s.sp.val = n.val + 1) : execRet s = .next (s.returnTo n) :=
  execRet_of_sp h

/-- A stack is empty or its pointer stands above its last occupied slot (R22). -/
theorem sp_eq_zero_or_succ (s : State) : s.sp.val = 0 ∨ ∃ n : Fin 16, s.sp.val = n.val + 1 := by
  rcases Fin.eq_zero_or_eq_succ s.sp with h | ⟨n, h⟩
  · exact .inl (congrArg Fin.val h)
  · exact .inr ⟨n, congrArg Fin.val h⟩

/-- A stack is full or its pointer stands at its first free slot (R22). -/
theorem sp_eq_sixteen_or_slot (s : State) : s.sp.val = 16 ∨ ∃ n : Fin 16, s.sp.val = n.val := by
  rcases Fin.eq_castSucc_or_eq_last s.sp with ⟨n, h⟩ | h
  · exact .inr ⟨n, congrArg Fin.val h⟩
  · exact .inl (congrArg Fin.val h)

/-- The policy decides `RET` on an empty stack (R6, R64). -/
theorem retOnEmpty_cases (s : State) :
    s.config.retEmptyPolicy = .hold ∧ retOnEmpty s = s ∨
      s.config.retEmptyPolicy = .report ∧ retOnEmpty s = (s.emit .emptyStackReturn 0x00EE).advance 2 := by
  cases hpolicy : s.config.retEmptyPolicy with
  | hold => exact .inl ⟨rfl, retOnEmpty_hold hpolicy⟩
  | report => exact .inr ⟨rfl, retOnEmpty_report hpolicy⟩

/-- `RET` is on an empty stack, or pops the last occupied slot (R64). -/
theorem exec_ret_cases {s t : State} (h : exec .ret s = .next t) :
    (s.sp.val = 0 ∧ t = retOnEmpty s) ∨ ∃ n : Fin 16, s.sp.val = n.val + 1 ∧ t = s.returnTo n := by
  obtain hsp | ⟨n, hsp⟩ := sp_eq_zero_or_succ s
  · exact .inl ⟨hsp, Host.Outcome.next.inj (h.symm.trans (execRet_empty hsp))⟩
  · exact .inr ⟨n, hsp, Host.Outcome.next.inj (h.symm.trans (execRet_returnTo hsp))⟩

/-- A `CALL` that goes on found a free slot (R66). -/
theorem callTo_of_exec {nnn : Addr} {s t : State} (h : exec (.call nnn) s = .next t) :
    ∃ n : Fin 16, s.sp.val = n.val ∧ t = s.callTo n nnn := by
  obtain hsp | ⟨n, hsp⟩ := sp_eq_sixteen_or_slot s
  · cases h.symm.trans (execCall_full nnn hsp)
  · exact ⟨n, hsp, Host.Outcome.next.inj (h.symm.trans (execCall_callTo nnn hsp))⟩

/-- Every instruction but `RET` and `CALL` goes on, writes the registers its rule names and `pc`, and nothing else. -/
theorem exec_regFrame {i : Instr} (s : State) (hret : i ≠ .ret) (hcall : ∀ nnn, i ≠ .call nnn) :
    ∃ t, exec i s = .next t ∧ RegFrame (writtenRegs i) s t ∧ t.memory = s.memory := by
  cases i with
  | ret => exact absurd rfl hret
  | call nnn => exact absurd rfl (hcall nnn)
  | sys nnn => exact ⟨_, rfl, regFrame_advance s 2, rfl⟩
  | jp nnn => exact ⟨_, rfl, regFrame_setPc s _, rfl⟩
  | seByte x kk => exact ⟨_, rfl, regFrame_skipIf s _, skipIf_memory s _⟩
  | sneByte x kk => exact ⟨_, rfl, regFrame_skipIf s _, skipIf_memory s _⟩
  | seReg x y => exact ⟨_, rfl, regFrame_skipIf s _, skipIf_memory s _⟩
  | ldByte x kk => exact ⟨_, rfl, regFrame_commit s x _, rfl⟩
  | addByte x kk => exact ⟨_, rfl, regFrame_commit s x _, rfl⟩
  | ldReg x y => exact ⟨_, rfl, regFrame_commit s x _, rfl⟩
  | orReg x y => exact ⟨_, rfl, regFrame_commit s x _, rfl⟩
  | andReg x y => exact ⟨_, rfl, regFrame_commit s x _, rfl⟩
  | xorReg x y => exact ⟨_, rfl, regFrame_commit s x _, rfl⟩
  | addReg x y => exact ⟨_, rfl, regFrame_commitFlag s x _ _, rfl⟩
  | subReg x y => exact ⟨_, rfl, regFrame_commitFlag s x _ _, rfl⟩
  | shr x => exact ⟨_, rfl, regFrame_commitFlag s x _ _, rfl⟩
  | subnReg x y => exact ⟨_, rfl, regFrame_commitFlag s x _ _, rfl⟩

/-- A handler that goes on is `RET` on an empty stack, `RET` from an occupied slot, `CALL` into a free slot, or an
instruction that writes the registers its rule names and `pc`, and nothing else. -/
theorem exec_next_cases {i : Instr} {s t : State} (h : exec i s = .next t) :
    (i = .ret ∧ s.sp.val = 0 ∧ t = retOnEmpty s) ∨
      (∃ n : Fin 16, i = .ret ∧ s.sp.val = n.val + 1 ∧ t = s.returnTo n) ∨
      (∃ (n : Fin 16) (nnn : Addr), i = .call nnn ∧ s.sp.val = n.val ∧ t = s.callTo n nnn) ∨
      (i ≠ .ret ∧ (∀ nnn, i ≠ .call nnn) ∧ RegFrame (writtenRegs i) s t ∧ t.memory = s.memory) := by
  by_cases hret : i = .ret
  · subst hret
    obtain ⟨hsp, ht⟩ | ⟨n, hsp, ht⟩ := exec_ret_cases h
    · exact .inl ⟨rfl, hsp, ht⟩
    · exact .inr (.inl ⟨n, rfl, hsp, ht⟩)
  by_cases hcall : ∃ nnn, i = .call nnn
  · obtain ⟨nnn, rfl⟩ := hcall
    obtain ⟨n, hsp, ht⟩ := callTo_of_exec h
    exact .inr (.inr (.inl ⟨n, nnn, rfl, hsp, ht⟩))
  · have hcall : ∀ nnn, i ≠ .call nnn := fun nnn heq => hcall ⟨nnn, heq⟩
    obtain ⟨u, hu, hframe, hmemory⟩ := exec_regFrame s hret hcall
    obtain rfl := Host.Outcome.next.inj (h.symm.trans hu)
    exact .inr (.inr (.inr ⟨hret, hcall, hframe, hmemory⟩))

/-- No handler writes the index register, a timer, memory or the configuration. -/
theorem exec_keeps_rest {i : Instr} {s t : State} (h : exec i s = .next t) :
    t.I = s.I ∧ t.DT = s.DT ∧ t.ST = s.ST ∧ t.memory = s.memory ∧ t.config = s.config := by
  obtain ⟨-, -, rfl⟩ | ⟨n, -, -, rfl⟩ | ⟨n, nnn, -, -, rfl⟩ | ⟨-, -, ⟨-, -, hrest, -⟩, hmemory⟩ := exec_next_cases h
  · obtain ⟨-, heq⟩ | ⟨-, heq⟩ := retOnEmpty_cases s <;> rw [heq]
    · exact ⟨rfl, rfl, rfl, rfl, rfl⟩
    · exact ⟨rfl, rfl, rfl, rfl, rfl⟩
  · exact ⟨rfl, rfl, rfl, rfl, rfl⟩
  · exact ⟨rfl, rfl, rfl, rfl, rfl⟩
  · obtain ⟨hI, hDT, hST, hconfig, -⟩ := hrest
    exact ⟨hI, hDT, hST, hmemory, hconfig⟩

/-- No step writes the index register, a timer, memory or the configuration. -/
theorem step_keeps_rest {s t : State} (h : step s = .next t) :
    t.I = s.I ∧ t.DT = s.DT ∧ t.ST = s.ST ∧ t.memory = s.memory ∧ t.config = s.config := by
  obtain ⟨w, -, ⟨i, -, hexec⟩ | ⟨-, rfl⟩⟩ := step_next_cases h
  · exact exec_keeps_rest hexec
  · exact ⟨rfl, rfl, rfl, rfl, rfl⟩

/-- Settles O37: neither a handler nor the unknown-opcode path writes these fields. -/
theorem stepNeverWritesMemoryTimersOrConfig : Obligations.StepNeverWritesMemoryTimersOrConfig := by
  unfold Obligations.StepNeverWritesMemoryTimersOrConfig
  exact fun s t => step_keeps_rest

end Sys2Proof.Machine
end

section
/-! The stack over a step, and over the steps between a call and its return (R21 to R23, R64, R66). -/

namespace Sys2Proof.Machine

/-- `RET` on an empty stack writes `pc` and the events at most (R64). -/
theorem retOnEmpty_frame (s : State) :
    (retOnEmpty s).V = s.V ∧ (retOnEmpty s).stack = s.stack ∧ (retOnEmpty s).sp = s.sp := by
  obtain ⟨-, heq⟩ | ⟨-, heq⟩ := retOnEmpty_cases s <;> rw [heq]
  · exact ⟨rfl, rfl, rfl⟩
  · exact ⟨rfl, rfl, rfl⟩

/-- `RET` lowers `sp` by one, or leaves it at 0, and writes no slot (R23, R64). -/
theorem stack_of_exec_ret {s t : State} (h : exec .ret s = .next t) :
    t.sp.val = s.sp.val - 1 ∧ t.stack = s.stack := by
  obtain ⟨hsp, rfl⟩ | ⟨n, hsp, rfl⟩ := exec_ret_cases h
  · obtain ⟨-, hstack, hkeep⟩ := retOnEmpty_frame s
    exact ⟨by rw [hkeep, hsp], hstack⟩
  · exact ⟨by rw [hsp]; rfl, rfl⟩

/-- A handler writes no stack slot but the one at `sp` (R22). -/
theorem exec_keeps_slots {i : Instr} {s t : State} (h : exec i s = .next t) (j : Fin 16) (hj : j.val ≠ s.sp.val) :
    t.stack[j.val] = s.stack[j.val] := by
  obtain ⟨rfl, -, -⟩ | ⟨n, rfl, -, -⟩ | ⟨n, nnn, -, hsp, rfl⟩ | ⟨-, -, ⟨-, ⟨hstack, -⟩, -, -⟩, -⟩ := exec_next_cases h
  · rw [(stack_of_exec_ret h).2]
  · rw [(stack_of_exec_ret h).2]
  · exact Vector.getElem_set_ne n.isLt j.isLt (by omega)
  · rw [hstack]

/-- A step writes no stack slot but the one at `sp` (R22). -/
theorem step_keeps_slots {s t : State} (h : step s = .next t) (j : Fin 16) (hj : j.val ≠ s.sp.val) :
    t.stack[j.val] = s.stack[j.val] := by
  obtain ⟨w, -, ⟨i, -, hexec⟩ | ⟨-, rfl⟩⟩ := step_next_cases h
  · exact exec_keeps_slots hexec j hj
  · rfl

/-- Settles O56: a step writes no slot but the one at `sp`, and an occupied slot lies below `sp`. -/
theorem stepKeepsOccupiedReturnAddresses : Obligations.StepKeepsOccupiedReturnAddresses := by
  unfold Obligations.StepKeepsOccupiedReturnAddresses
  intro s t n a hn ha hstep _
  rw [step_keeps_slots hstep n hn.ne, ha]

/-- The words that decode to `CALL` are those with `w / 4096 = 2` (R52). -/
theorem decodeWord_call_iff_div {w : Word} : (∃ nnn, decodeWord w = .instr (.call nnn)) ↔ w.toNat / 4096 = 2 := by
  rw [decodeWord_call_iff, ← BitVec.toNat_inj, fieldOp_toNat]
  rfl

/-- Settles O38: the word decides whether the step is `CALL`, `RET` or neither, and neither has an empty frame on the
stack. -/
theorem onlyCallAndRetTouchTheStack : Obligations.OnlyCallAndRetTouchTheStack := by
  unfold Obligations.OnlyCallAndRetTouchTheStack
  intro s t w hfetch hstep
  refine ⟨fun hop => ⟨?_, step_keeps_slots hstep⟩, fun hret => ?_, fun hop hret => ?_⟩
  · obtain ⟨nnn, hdecode⟩ := decodeWord_call_iff_div.mpr hop
    rw [step_of_instr hfetch hdecode] at hstep
    obtain ⟨n, hsp, rfl⟩ := callTo_of_exec hstep
    exact congrArg (· + 1) hsp.symm
  · rw [step_of_instr hfetch (decodeWord_ret_iff.mpr hret)] at hstep
    exact stack_of_exec_ret hstep
  · obtain ⟨w', hfetch', ⟨i, hdecode, hexec⟩ | ⟨-, rfl⟩⟩ := step_next_cases hstep
    · obtain rfl := Option.some.inj (hfetch.symm.trans hfetch')
      obtain ⟨rfl, -, -⟩ | ⟨n, rfl, -, -⟩ | ⟨n, nnn, rfl, -, -⟩ | ⟨-, -, ⟨-, ⟨hstack, hsp⟩, -, -⟩, -⟩ :=
        exec_next_cases hexec
      · exact absurd (decodeWord_ret_iff.mp hdecode) hret
      · exact absurd (decodeWord_ret_iff.mp hdecode) hret
      · exact absurd (decodeWord_call_iff_div.mp ⟨nnn, hdecode⟩) hop
      · exact ⟨hsp, hstack⟩
    · exact ⟨rfl, rfl⟩

/-- Steps in which `sp` stays at `floor` or above keep every slot below `floor`. -/
theorem runsAbove_keeps_slots {floor k : Nat} {s t : State} (h : RunsAbove floor k s t) (j : Fin 16)
    (hj : j.val < floor) : t.stack[j.val] = s.stack[j.val] := by
  induction k generalizing s with
  | zero =>
    obtain ⟨-, rfl⟩ := h
    rfl
  | succ k ih =>
    obtain ⟨hfloor, u, hstep, hrun⟩ := h
    exact (ih hrun).trans (step_keeps_slots hstep j (by omega))

/-- Settles O41: the slot that `CALL` wrote lies below `sp` in every state up to the `RET`, so the `RET` pops what was
pushed. -/
theorem returnLandsAfterItsCall : Obligations.ReturnLandsAfterItsCall := by
  unfold Obligations.ReturnLandsAfterItsCall
  intro nnn k s t u hcall hrun hsp_u
  obtain ⟨n, hsp, rfl⟩ := callTo_of_exec hcall
  have hentry : u.stack[n.val] = s.pcPlus 2 :=
    (runsAbove_keeps_slots hrun n (by omega)).trans (Vector.getElem_set_self n.isLt)
  refine ⟨u.returnTo n, execRet_returnTo (by omega), ?_, Fin.ext hsp.symm⟩
  rw [State.returnTo, setPc_pc, hentry, pcPlus_toNat]

end Sys2Proof.Machine
end

section
/-! Registers over a step (R13 to R15). -/

namespace Sys2Proof.Machine

theorem sameRegsBut_of_V_eq {s t : State} (rs : List Reg) (h : t.V = s.V) : SameRegsBut rs s t := fun r _ => by
  rw [State.readV, h, State.readV]

/-- A handler writes no register but those its rule names. -/
theorem exec_sameRegsBut {i : Instr} {s t : State} (h : exec i s = .next t) : SameRegsBut (writtenRegs i) s t := by
  obtain ⟨-, -, rfl⟩ | ⟨n, -, -, rfl⟩ | ⟨n, nnn, -, -, rfl⟩ | ⟨-, -, ⟨hregs, -⟩, -⟩ := exec_next_cases h
  · exact sameRegsBut_of_V_eq _ (retOnEmpty_frame s).1
  · exact sameRegsBut_of_V_eq _ rfl
  · exact sameRegsBut_of_V_eq _ rfl
  · exact hregs

/-- A rule with a flag leaves 0 or 1 in `VF`, whatever its destination is (R15, R73). -/
theorem readV_vf_commitFlag_le_one (s : State) (x : Reg) (b : Byte) {f : Byte} (hf : f.toNat ≤ 1) :
    ((s.commitFlag x b f).readV 15).toNat ≤ 1 := by
  rwa [readV_commitFlag_vf]

theorem flagOf_le_one (b : Bool) : (flagOf b).toNat ≤ 1 := by cases b <;> decide

/-- Settles O36: every handler writes the registers its rule names, and the four rules with a flag commit one last. -/
theorem stepWritesOnlyTheNamedRegisters : Obligations.StepWritesOnlyTheNamedRegisters := by
  unfold Obligations.StepWritesOnlyTheNamedRegisters
  refine ⟨fun s t w hfetch hstep => ⟨fun i hdecode => ?_, fun hunknown => ?_⟩, fun i s t hexec hflag => ?_⟩
  · exact exec_sameRegsBut ((step_of_instr hfetch hdecode).symm.trans hstep)
  · obtain rfl := Host.Outcome.next.inj (hstep.symm.trans (step_of_unknown hfetch hunknown))
    exact sameRegsBut_of_V_eq _ rfl
  · obtain ⟨x, y, rfl | rfl | rfl⟩ | ⟨x, rfl⟩ := hflag
    · obtain rfl := Host.Outcome.next.inj hexec
      exact readV_vf_commitFlag_le_one s x _ (flagOf_le_one _)
    · obtain rfl := Host.Outcome.next.inj hexec
      exact readV_vf_commitFlag_le_one s x _ (flagOf_le_one _)
    · obtain rfl := Host.Outcome.next.inj hexec
      exact readV_vf_commitFlag_le_one s x _ (flagOf_le_one _)
    · obtain rfl := Host.Outcome.next.inj hexec
      refine readV_vf_commitFlag_le_one s x _ ?_
      rw [shiftOutFlag_toNat]
      omega

end Sys2Proof.Machine
end

section
/-! The results of the register-register operations, bit by bit and as integers (R75 to R82). -/

namespace Sys2Proof.Machine

/-- Settles O28: `OR` commits the bitwise or. -/
theorem orRegIsBitwiseAndKeepsVF : Obligations.OrRegIsBitwiseAndKeepsVF := by
  unfold Obligations.OrRegIsBitwiseAndKeepsVF
  refine ⟨fun w h => decodeWord_xy (n := 10) rfl h (by decide), fun x y s => ?_⟩
  refine ⟨s.commit x (s.readV x ||| s.readV y), rfl, fun k => ?_, pcBy_commit s x _, regFrame_commit s x _⟩
  rw [readV_commit_same, BitVec.getLsbD_or]

/-- Settles O29: `AND` commits the bitwise and. -/
theorem andRegIsBitwiseAndKeepsVF : Obligations.AndRegIsBitwiseAndKeepsVF := by
  unfold Obligations.AndRegIsBitwiseAndKeepsVF
  refine ⟨fun w h => decodeWord_xy (n := 11) rfl h (by decide), fun x y s => ?_⟩
  refine ⟨s.commit x (s.readV x &&& s.readV y), rfl, fun k => ?_, pcBy_commit s x _, regFrame_commit s x _⟩
  rw [readV_commit_same, BitVec.getLsbD_and]

/-- Settles O30: `XOR` commits the bitwise exclusive or. -/
theorem xorRegIsBitwiseAndKeepsVF : Obligations.XorRegIsBitwiseAndKeepsVF := by
  unfold Obligations.XorRegIsBitwiseAndKeepsVF
  refine ⟨fun w h => decodeWord_xy (n := 12) rfl h (by decide), fun x y s => ?_⟩
  refine ⟨s.commit x (s.readV x ^^^ s.readV y), rfl, fun k => ?_, pcBy_commit s x _, regFrame_commit s x _⟩
  rw [readV_commit_same, BitVec.getLsbD_xor]

/-- Settles O35: the value and the flag that each rule commits are the two digits of one integer. -/
theorem flagAndResultRecoverTheOperands : Obligations.FlagAndResultRecoverTheOperands := by
  unfold Obligations.FlagAndResultRecoverTheOperands
  intro x y s t hx
  have hVx := (s.readV x).isLt
  have hVy := (s.readV y).isLt
  refine ⟨fun h => ?_, fun h => ?_, fun h => ?_, fun h => ?_⟩
  · obtain ⟨-, hadd⟩ := addRegSetsCarry
    obtain ⟨u, hu, hsum, hcarry, -⟩ := hadd x y s
    obtain rfl := Host.Outcome.next.inj (h.symm.trans hu)
    rw [hsum hx, hcarry]
    split <;> omega
  · obtain ⟨-, hsub⟩ := subRegSetsNotBorrow
    obtain ⟨u, hu, hdiff, hflag, -⟩ := hsub x y s
    obtain rfl := Host.Outcome.next.inj (h.symm.trans hu)
    rw [hdiff hx, hflag]
    split <;> omega
  · obtain ⟨-, hsubn⟩ := subnRegSetsNotBorrow
    obtain ⟨u, hu, hdiff, hflag, -⟩ := hsubn x y s
    obtain rfl := Host.Outcome.next.inj (h.symm.trans hu)
    rw [hdiff hx, hflag]
    split <;> omega
  · obtain ⟨-, hshr⟩ := shrShiftsVxAndSetsBitZero
    obtain ⟨u, hu, hhalf, hbit, -⟩ := hshr x s
    obtain rfl := Host.Outcome.next.inj (h.symm.trans hu)
    rw [hhalf hx, hbit]
    omega

end Sys2Proof.Machine
end

section
/-! The outcomes of a step, and its report (R83 to R92). -/

namespace Sys2Proof.Machine

/-- A step's outcome is decided by the fetch range and by `CALL` on a full stack (R83 to R86). -/
theorem step_cases (s : State) :
    (s.config.memorySize ≤ s.pc.toNat + 1 ∧ step s = .fault .pcOutOfRange) ∨
      (s.pc.toNat + 1 < s.config.memorySize ∧ CallOnFullStack s ∧ step s = .fault .stackOverflow) ∨
      (s.pc.toNat + 1 < s.config.memorySize ∧ ¬ CallOnFullStack s ∧ ∃ t, step s = .next t) := by
  cases hfetch : s.fetch with
  | none => exact .inl ⟨fetch_eq_none.mp hfetch, step_of_fetch_none hfetch⟩
  | some w =>
    have hrange := (fetch_eq_some.mp hfetch).1
    by_cases hfull : CallOnFullStack s
    · exact .inr (.inl ⟨hrange, hfull, step_eq_stackOverflow_iff.mpr hfull⟩)
    · refine .inr (.inr ⟨hrange, hfull, ?_⟩)
      cases hdecode : decodeWord w with
      | instr i =>
        rw [← step_eq_stackOverflow_iff, step_of_instr hfetch hdecode] at hfull
        obtain hnext | ⟨nnn, -, -, hfault⟩ := exec_cases i s
        · rwa [step_of_instr hfetch hdecode]
        · exact absurd hfault hfull
      | unknownOpcode u => exact ⟨_, step_of_unknown hfetch hdecode⟩

/-- Settles O12: of the outcomes of a step, only the one with the fetch out of range is this fault. -/
theorem pcOutOfRangeExactly : Obligations.PcOutOfRangeExactly := by
  unfold Obligations.PcOutOfRangeExactly
  intro s
  obtain ⟨hrange, hstep⟩ | ⟨hrange, -, hstep⟩ | ⟨hrange, -, t, hstep⟩ := step_cases s
  · exact iff_of_true hstep hrange
  · exact iff_of_false (by rw [hstep]; exact nofun) (by omega)
  · exact iff_of_false (by rw [hstep]; exact nofun) (by omega)

/-- No step is refused: every instruction has a meaning. -/
theorem step_ne_refused (s : State) (r : Refusal) : step s ≠ .refused r := by
  obtain ⟨-, hstep⟩ | ⟨-, -, hstep⟩ | ⟨-, -, t, hstep⟩ := step_cases s <;> rw [hstep] <;> exact nofun

/-- Settles O14: of the outcomes of a step, only the ready one goes on, and none is a refusal. -/
theorem stepCompletesExactlyWhenReady : Obligations.StepCompletesExactlyWhenReady := by
  unfold Obligations.StepCompletesExactlyWhenReady
  refine ⟨fun s => ?_, step_ne_refused⟩
  obtain ⟨hrange, hstep⟩ | ⟨-, hfull, hstep⟩ | ⟨hrange, hfull, hnext⟩ := step_cases s
  · exact iff_of_false (fun ⟨hlt, _⟩ => absurd hrange (by omega)) (by rw [hstep]; exact nofun)
  · exact iff_of_false (fun ⟨_, hnot⟩ => hnot hfull) (by rw [hstep]; exact nofun)
  · exact iff_of_true ⟨hrange, hfull⟩ hnext

theorem stepReport_of_next {s t : State} (h : step s = .next t) :
    stepReport s = { state := t, reply := .ok, event := emitted s t } := by
  simp only [stepReport, h]

/-- The report of a step that answers `PcOutOfRange` keeps the state and has no event (R84, R91). -/
theorem stepReport_of_pcOutOfRange {s : State} (h : step s = .fault .pcOutOfRange) :
    stepReport s = { state := s, reply := .pcOutOfRange, event := none } := by
  simp only [stepReport, h]

/-- Settles O16: each fault reports the state it found, with no event. -/
theorem failedStepLeavesTheState : Obligations.FailedStepLeavesTheState := by
  unfold Obligations.FailedStepLeavesTheState
  intro s hreply
  obtain ⟨-, hstep⟩ | ⟨-, -, hstep⟩ | ⟨-, -, t, hstep⟩ := step_cases s
  · have hreport := stepReport_of_pcOutOfRange hstep
    rw [hreport]
    exact ⟨rfl, rfl, hreport, .inr rfl⟩
  · have hreport := stepReport_of_stackOverflow hstep
    rw [hreport]
    exact ⟨rfl, rfl, hreport, .inl rfl⟩
  · rw [stepReport_of_next hstep] at hreply
    exact absurd rfl hreply

/-- Settles O10: the two bytes at `pc` are the fetched word, so their decode decides the step. -/
theorem stepRunsDecodedInstruction : Obligations.StepRunsDecodedInstruction := by
  unfold Obligations.StepRunsDecodedInstruction
  intro s i hrange hbytes
  obtain ⟨hdecode, -⟩ := Prod.mk.inj (Option.some.inj hbytes)
  exact step_of_instr (fetch_eq_some.mpr ⟨hrange, rfl⟩) hdecode

end Sys2Proof.Machine
end

section
/-! `RET`, the unknown-opcode path, and the events of a step (R57, R64, R84, R88). -/

namespace Sys2Proof.Machine

/-- A step that appends `e`, or nothing, to the events has emitted just that (R84). -/
theorem emitted_of_events {s t : State} {e : Option Event} (h : t.events = s.events ++ e.toList) :
    emitted s t = e := by
  rw [emitted, h, List.drop_left]
  cases e <;> rfl

/-- An event and an advance write the events and `pc` only. -/
theorem emit_advance_frame (s : State) (k : EventKind) (w : Word) (n : Nat) :
    PcBy n s ((s.emit k w).advance n) ∧ SameRegsBut [] s ((s.emit k w).advance n) ∧
      SameStack s ((s.emit k w).advance n) ∧ SameRest s ((s.emit k w).advance n) := by
  refine ⟨pcBy_advance (s.emit k w) n, sameRegsBut_of_V_eq _ rfl, ⟨rfl, rfl⟩, rfl, rfl, rfl, rfl, fun _ => rfl⟩

/-- Settles O11: the unknown-opcode path emits one event and advances, and the report of the step holds that event. -/
theorem unknownWordIsSkippedWithOneEvent : Obligations.UnknownWordIsSkippedWithOneEvent := by
  unfold Obligations.UnknownWordIsSkippedWithOneEvent
  intro s w hfetch hunknown
  have hstep := step_of_unknown hfetch hunknown
  obtain ⟨hpc, hregs, hstack, hrest⟩ := emit_advance_frame s .unknownOpcode w 2
  refine ⟨s.skipUnknown w, hstep, hpc, hregs, hstack, hrest, rfl, ?_⟩
  rw [stepReport_of_next hstep, emitted_of_events (e := some _) rfl]

/-- Settles O18: `RET` from an occupied slot pops that slot. -/
theorem retPopsTheReturnAddress : Obligations.RetPopsTheReturnAddress := by
  unfold Obligations.RetPopsTheReturnAddress
  refine ⟨fun w h => decodeWord_ret_iff.mpr ((word_mask_all w).symm.trans h), fun s n hn hsp => ?_⟩
  exact ⟨s.returnTo ⟨n, hn⟩, execRet_returnTo hsp, rfl, rfl, rfl, sameRegsBut_of_V_eq _ rfl,
    ⟨rfl, rfl, rfl, rfl, fun _ => rfl⟩, rfl⟩

/-- Settles O19: the policy decides `RET` on an empty stack. -/
theorem retOnEmptyStackByPolicy : Obligations.RetOnEmptyStackByPolicy := by
  unfold Obligations.RetOnEmptyStackByPolicy
  refine fun s hsp => ⟨fun hhold => ?_, fun hreport => ?_⟩
  · exact (execRet_empty hsp).trans (congrArg _ (retOnEmpty_hold hhold))
  · obtain ⟨hpc, hregs, hstack, hrest⟩ := emit_advance_frame s .emptyStackReturn 0x00EE 2
    refine ⟨_, ?_, hpc, hregs, hstack, hrest, rfl⟩
    rw [← retOnEmpty_report hreport]
    exact execRet_empty hsp

/-- The event that the step on a fetched word `w` emits, if any (R57, R64). -/
def stepEvent (s : State) (w : Word) : Option Event :=
  if decodeWord w = .unknownOpcode w then some { kind := .unknownOpcode, opcode := w, address := s.pc }
  else if w = 0x00EE ∧ s.sp.val = 0 ∧ s.config.retEmptyPolicy = .report then
    some { kind := .emptyStackReturn, opcode := w, address := s.pc }
  else none

theorem stepEvent_of_unknown {s : State} {w : Word} (h : decodeWord w = .unknownOpcode w) :
    stepEvent s w = some { kind := .unknownOpcode, opcode := w, address := s.pc } := if_pos h

theorem stepEvent_of_report {s : State} (hsp : s.sp.val = 0) (h : s.config.retEmptyPolicy = .report) :
    stepEvent s 0x00EE = some { kind := .emptyStackReturn, opcode := 0x00EE, address := s.pc } :=
  (if_neg (by decide)).trans (if_pos ⟨rfl, hsp, h⟩)

theorem stepEvent_eq_none {s : State} {w : Word} {i : Instr} (hdecode : decodeWord w = .instr i)
    (h : ¬ (i = .ret ∧ s.sp.val = 0 ∧ s.config.retEmptyPolicy = .report)) : stepEvent s w = none := by
  unfold stepEvent
  rw [if_neg (by rw [hdecode]; exact nofun), if_neg]
  rintro ⟨hw, hempty⟩
  exact h ⟨Decoded.instr.inj (hdecode.symm.trans (decodeWord_ret_iff.mpr hw)), hempty⟩

/-- A completed step appends the event that its word calls for, and nothing else. -/
theorem step_events {s t : State} {w : Word} (hfetch : s.fetch = some w) (hstep : step s = .next t) :
    t.events = s.events ++ (stepEvent s w).toList := by
  obtain ⟨w', hfetch', ⟨i, hdecode, hexec⟩ | ⟨hunknown, rfl⟩⟩ := step_next_cases hstep
  all_goals obtain rfl := Option.some.inj (hfetch.symm.trans hfetch')
  · obtain ⟨rfl, hsp, rfl⟩ | ⟨n, rfl, hsp, rfl⟩ | ⟨n, nnn, rfl, -, rfl⟩ | ⟨hret, -, ⟨-, -, -, hevents⟩, -⟩ :=
      exec_next_cases hexec
    · obtain ⟨hpolicy, heq⟩ | ⟨hpolicy, heq⟩ := retOnEmpty_cases s
      · rw [heq, stepEvent_eq_none hdecode (by simp [hpolicy]), Option.toList_none, List.append_nil]
      · obtain rfl := decodeWord_ret_iff.mp hdecode
        rw [heq, stepEvent_of_report hsp hpolicy]
        rfl
    · rw [stepEvent_eq_none hdecode (by omega), Option.toList_none, List.append_nil]
      rfl
    · rw [stepEvent_eq_none hdecode nofun, Option.toList_none, List.append_nil]
      rfl
    · rw [stepEvent_eq_none hdecode fun h => hret h.1, Option.toList_none, List.append_nil, hevents]
  · rw [stepEvent_of_unknown hunknown]
    rfl

/-- Settles O15: a completed step appends at most one event, and its report reads that one back. -/
theorem atMostOneEventPerStep : Obligations.AtMostOneEventPerStep := by
  unfold Obligations.AtMostOneEventPerStep
  intro s t w hfetch hstep
  have hevents := step_events hfetch hstep
  have hevent : (stepReport s).event = stepEvent s w := by
    rw [stepReport_of_next hstep]
    exact emitted_of_events hevents
  exact ⟨hevent, by rw [hevent, hevents]⟩

end Sys2Proof.Machine
end

section
/-! `pc` over a step (R17 to R20). -/

namespace Sys2Proof.Machine

theorem skipIf_pc_toNat (s : State) (c : Bool) :
    (s.skipIf c).pc.toNat = if c then (s.pc.toNat + 4) % 65536 else (s.pc.toNat + 2) % 65536 := by
  cases c
  · exact pcPlus_toNat s 2
  · exact pcPlus_toNat s 4

/-- After a handler that goes on, `pc` is what the table of R18 gives. -/
theorem exec_pc {i : Instr} {s t : State} (h : exec i s = .next t) : t.pc.toNat = pcTable s (.instr i) := by
  cases i with
  | ret =>
    obtain ⟨hsp, rfl⟩ | ⟨n, hsp, rfl⟩ := exec_ret_cases h
    · obtain ⟨hpolicy, heq⟩ | ⟨hpolicy, heq⟩ := retOnEmpty_cases s
      · rw [heq]
        simp [pcTable, hsp, hpolicy]
      · rw [heq]
        simp [pcTable, hsp, hpolicy]
    · simp [pcTable, hsp, State.returnTo]
  | call nnn =>
    obtain ⟨n, hsp, rfl⟩ := callTo_of_exec h
    have hfree : s.sp.val ≠ 16 := by omega
    simp [pcTable, hfree, State.callTo, targetOf_toNat]
  | sys nnn => cases h; exact pcPlus_toNat s 2
  | jp nnn => cases h; exact targetOf_toNat nnn
  | seByte x kk => cases h; rw [skipIf_pc_toNat]; simp [pcTable]
  | sneByte x kk => cases h; rw [skipIf_pc_toNat]; simp [pcTable]
  | seReg x y => cases h; rw [skipIf_pc_toNat]; simp [pcTable]
  | _ => cases h; exact pcPlus_toNat s 2

/-- Settles O39: a failed step leaves `pc`, which is the table's entry for `CALL` at `sp = 16`, and every other step
follows the table. -/
theorem pcChangesAsTheTableSays : Obligations.PcChangesAsTheTableSays := by
  unfold Obligations.PcChangesAsTheTableSays
  refine ⟨fun s hfetch => ?_, fun s w hfetch => ?_⟩
  · rw [stepReport_of_pcOutOfRange (step_of_fetch_none hfetch)]
  · cases hdecode : decodeWord w with
    | unknownOpcode u =>
      rw [stepReport_of_next (step_of_unknown hfetch hdecode)]
      exact pcPlus_toNat s 2
    | instr i =>
      have hstep := step_of_instr hfetch hdecode
      obtain ⟨t, hexec⟩ | ⟨nnn, rfl, hsp, hexec⟩ := exec_cases i s
      · rw [stepReport_of_next (hstep.trans hexec)]
        exact exec_pc hexec
      · rw [stepReport_of_stackOverflow (hstep.trans hexec)]
        exact (if_pos hsp).symm

/-- The table adds an even number to `pc` for every instruction that is no jump, call or return, and the sum wraps at an
even number. -/
theorem pcTable_parity (s : State) {i : Instr} (hret : i ≠ .ret) (hjp : ∀ nnn, i ≠ .jp nnn)
    (hcall : ∀ nnn, i ≠ .call nnn) : pcTable s (.instr i) % 2 = s.pc.toNat % 2 := by
  have hby2 : (s.pc.toNat + 2) % 65536 % 2 = s.pc.toNat % 2 := by omega
  have hby4 : (s.pc.toNat + 4) % 65536 % 2 = s.pc.toNat % 2 := by omega
  cases i with
  | ret => exact absurd rfl hret
  | jp nnn => exact absurd rfl (hjp nnn)
  | call nnn => exact absurd rfl (hcall nnn)
  | seByte x kk => simp only [pcTable]; split <;> assumption
  | sneByte x kk => simp only [pcTable]; split <;> assumption
  | seReg x y => simp only [pcTable]; split <;> assumption
  | _ => exact hby2

/-- The words that decode to `JP` have `w / 4096 = 1` (R52). -/
theorem div_of_decodeWord_jp {w : Word} {nnn : Addr} (h : decodeWord w = .instr (.jp nnn)) : w.toNat / 4096 = 1 :=
  (mask_op_iff_div w 1).mp (decodeWord_matches h)

/-- Settles O40: the word is none of the three that put another value in `pc`, so the table only adds to it. -/
theorem pcKeepsItsParity : Obligations.PcKeepsItsParity := by
  unfold Obligations.PcKeepsItsParity
  intro s t w hfetch hstep hret hjp hcall
  obtain ⟨w', hfetch', ⟨i, hdecode, hexec⟩ | ⟨-, rfl⟩⟩ := step_next_cases hstep
  · obtain rfl := Option.some.inj (hfetch.symm.trans hfetch')
    rw [exec_pc hexec]
    refine pcTable_parity s ?_ ?_ ?_
    · rintro rfl
      exact hret (decodeWord_ret_iff.mp hdecode)
    · rintro nnn rfl
      exact hjp (div_of_decodeWord_jp hdecode)
    · rintro nnn rfl
      exact hcall (decodeWord_call_iff_div.mp ⟨nnn, hdecode⟩)
  · rw [skipUnknown_pc, pcPlus_toNat]
    omega

end Sys2Proof.Machine
end

section
/-! What a step reads: the same step from two states that differ in fields no handler reads (10_state.md sections 4
and 6, 20_memory.md section 5). -/

namespace Sys2Proof.Machine

/-- The fields of a state that no handler reads: the index register, the timers, memory, and the events so far. -/
structure Unread where
  I : Word
  DT : Byte
  ST : Byte
  memory : Memory
  events : List Event

/-- The unread fields after the events `es` have been emitted. -/
def Unread.emit (f : Unread) (es : List Event) : Unread := { f with events := f.events ++ es }

/-- `s` with other values of the unread fields. -/
def State.withUnread (s : State) (f : Unread) : State :=
  { s with I := f.I, DT := f.DT, ST := f.ST, memory := f.memory, events := f.events }

theorem withUnread_skipIf (s : State) (f : Unread) (c : Bool) :
    (s.withUnread f).skipIf c = (s.skipIf c).withUnread f := by
  cases c <;> rfl

/-- `o` goes on with the events `es` added to those of `s`, and `o'` goes on to the same state but for the unread
fields, which are those of `f` with `es` added. -/
def SameNextBut (s : State) (f : Unread) (o o' : Host.Outcome State Fault Refusal) : Prop :=
  ∃ u es, o = .next u ∧ u.events = s.events ++ es ∧ o' = .next (u.withUnread (f.emit es))

/-- An update that emits nothing commutes with a change of the unread fields. -/
theorem sameNextBut_of_quiet {s u v : State} {f : Unread} (hevents : u.events = s.events) (hv : v = u.withUnread f) :
    SameNextBut s f (.next u) (.next v) :=
  ⟨u, [], rfl, by rw [hevents, List.append_nil], by rw [hv, Unread.emit, List.append_nil]⟩

/-- A handler goes on from `s` as it does from `s` with other unread fields, or it faults from both. -/
theorem exec_withUnread (i : Instr) (s : State) (f : Unread) :
    SameNextBut s f (exec i s) (exec i (s.withUnread f)) ∨
      (exec i s = .fault .stackOverflow ∧ exec i (s.withUnread f) = .fault .stackOverflow) := by
  cases i with
  | ret =>
    obtain hsp | ⟨n, hsp⟩ := sp_eq_zero_or_succ s
    · have hexec : exec .ret s = .next (retOnEmpty s) := execRet_empty hsp
      have hexec' : exec .ret (s.withUnread f) = .next (retOnEmpty (s.withUnread f)) := execRet_empty hsp
      rw [hexec, hexec']
      obtain ⟨hpolicy, heq⟩ | ⟨hpolicy, heq⟩ := retOnEmpty_cases s
      · rw [heq, retOnEmpty_hold (s := s.withUnread f) hpolicy]
        exact .inl (sameNextBut_of_quiet rfl rfl)
      · rw [heq, retOnEmpty_report (s := s.withUnread f) hpolicy]
        exact .inl ⟨_, _, rfl, rfl, rfl⟩
    · have hexec : exec .ret s = .next (s.returnTo n) := execRet_returnTo hsp
      have hexec' : exec .ret (s.withUnread f) = .next ((s.withUnread f).returnTo n) := execRet_returnTo hsp
      rw [hexec, hexec']
      exact .inl (sameNextBut_of_quiet rfl rfl)
  | call nnn =>
    obtain hsp | ⟨n, hsp⟩ := sp_eq_sixteen_or_slot s
    · exact .inr ⟨execCall_full nnn hsp, execCall_full nnn hsp⟩
    · have hexec : exec (.call nnn) s = .next (s.callTo n nnn) := execCall_callTo nnn hsp
      have hexec' : exec (.call nnn) (s.withUnread f) = .next ((s.withUnread f).callTo n nnn) :=
        execCall_callTo nnn hsp
      rw [hexec, hexec']
      exact .inl (sameNextBut_of_quiet rfl rfl)
  | seByte x kk => exact .inl (sameNextBut_of_quiet (skipIf_events s _) (withUnread_skipIf s f _))
  | sneByte x kk => exact .inl (sameNextBut_of_quiet (skipIf_events s _) (withUnread_skipIf s f _))
  | seReg x y => exact .inl (sameNextBut_of_quiet (skipIf_events s _) (withUnread_skipIf s f _))
  | _ => exact .inl (sameNextBut_of_quiet rfl rfl)

/-- A step goes on from `s` as it does from `s` with other unread fields, or it faults from both, where both states
fetch the same word. -/
theorem step_withUnread {s : State} {f : Unread} (hfetch : (s.withUnread f).fetch = s.fetch) :
    SameNextBut s f (step s) (step (s.withUnread f)) ∨
      ∃ r, step s = .fault r ∧ step (s.withUnread f) = .fault r := by
  cases hword : s.fetch with
  | none =>
    exact .inr ⟨_, step_of_fetch_none hword, step_of_fetch_none (hfetch.trans hword)⟩
  | some w =>
    cases hdecode : decodeWord w with
    | instr i =>
      rw [step_of_instr hword hdecode, step_of_instr (hfetch.trans hword) hdecode]
      exact (exec_withUnread i s f).imp_right fun ⟨h, h'⟩ => ⟨_, h, h'⟩
    | unknownOpcode u =>
      rw [step_of_unknown hword hdecode, step_of_unknown (hfetch.trans hword) hdecode]
      exact .inl ⟨_, _, rfl, rfl, rfl⟩

/-- States that differ in unread fields only, and fetch the same word, take the same step. -/
theorem sameStepBut_withUnread {s : State} {f : Unread} (hfetch : (s.withUnread f).fetch = s.fetch) :
    SameStepBut s (s.withUnread f) := by
  obtain ⟨u, es, hu, hevents, hv⟩ | ⟨r, hs, ht⟩ := step_withUnread hfetch
  · unfold SameStepBut
    rw [hu, hv]
    refine ⟨fun _ => iff_of_false nofun nofun, fun _ => iff_of_false nofun nofun, fun u' hu' => ?_⟩
    obtain rfl := Host.Outcome.next.inj hu'
    exact ⟨_, rfl, rfl, rfl, rfl, rfl, rfl, rfl, rfl, rfl, rfl, es, hevents, rfl⟩
  · unfold SameStepBut
    rw [hs, ht]
    exact ⟨fun _ => Iff.rfl, fun _ => Iff.rfl, nofun⟩

/-- Settles O42: the fetch reads none of these fields, and neither does a handler. -/
theorem stepIgnoresIndexTimersAndEvents : Obligations.StepIgnoresIndexTimersAndEvents := by
  unfold Obligations.StepIgnoresIndexTimersAndEvents
  exact fun s i d e es => sameStepBut_withUnread (f := ⟨i, d, e, s.memory, es⟩) rfl

/-- Settles O43: memories that agree on the two bytes at `pc` give the same fetch, and no handler reads memory. -/
theorem stepReadsOnlyTheFetchedBytes : Obligations.StepReadsOnlyTheFetchedBytes := by
  unfold Obligations.StepReadsOnlyTheFetchedBytes
  intro s m hhigh hlow
  have hfetch : State.fetch { s with memory := m } = s.fetch := by
    unfold State.fetch
    rw [hhigh, hlow]
    rfl
  exact sameStepBut_withUnread (f := ⟨s.I, s.DT, s.ST, m, s.events⟩) hfetch

end Sys2Proof.Machine
end

section
/-! The invariant over steps and over the host's transactions (R26, R96 to R100). -/

namespace Sys2Proof.Machine

/-- The invariant speaks of the parameters and memory only. -/
theorem stateInv_of_eq {s t : State} (hs : StateInv s) (hmemory : t.memory = s.memory)
    (hconfig : t.config = s.config) : StateInv t := by
  unfold StateInv
  rwa [hmemory, hconfig]

/-- Settles O44: a step writes neither memory nor the parameters. -/
theorem stepKeepsTheInvariant : Obligations.StepKeepsTheInvariant := by
  unfold Obligations.StepKeepsTheInvariant
  intro s t hs hstep
  obtain ⟨-, -, -, hmemory, hconfig⟩ := step_keeps_rest hstep
  exact stateInv_of_eq hs hmemory hconfig

theorem stateInv_ofConfig {c : Config} (hc : c.Legal) : StateInv (State.ofConfig c) := ⟨hc, rfl, rfl⟩

theorem stateInv_withImage {c : Config} {bytes : List Byte} (hc : c.Legal)
    (hfits : c.loadOffset + bytes.length ≤ c.memorySize) : StateInv (State.withImage c bytes) :=
  ⟨hc, wf_writeBytes _ _ wf_nil, below_writeBytes _ _ hfits rfl⟩

/-- The state a step reports is the next state, or the state before. -/
theorem stepReport_state_cases (s : State) : step s = .next (stepReport s).state ∨ (stepReport s).state = s := by
  obtain ⟨-, hstep⟩ | ⟨-, -, hstep⟩ | ⟨-, -, t, hstep⟩ := step_cases s
  · exact .inr (by rw [stepReport_of_pcOutOfRange hstep])
  · exact .inr (by rw [stepReport_of_stackOverflow hstep])
  · exact .inl (by rw [stepReport_of_next hstep, hstep])

/-- A load reports the image in the reset state, or, where the image is too large, the state before (R100). -/
theorem loadProgram_state_cases (s : State) (bytes : List Byte) :
    (s.config.loadOffset + bytes.length ≤ s.config.memorySize ∧
        (transact s (.loadProgram bytes)).state = State.withImage s.config bytes) ∨
      (transact s (.loadProgram bytes)).state = s := by
  rcases Nat.lt_or_ge s.config.memorySize (s.config.loadOffset + bytes.length) with hlarge | hfits
  · exact .inr (by rw [transact_loadProgram_of_failed (loadProgram_of_too_large hlarge)])
  · exact .inl ⟨hfits, by rw [transact_loadProgram_of_loaded (loadProgram_eq_loaded_iff.mpr ⟨hfits, rfl⟩)]⟩

/-- A host write to an address in memory writes that byte. -/
theorem hostWriteMemory_of_lt {s : State} {a : Nat} (b : Byte) (h : a < s.config.memorySize) :
    transact s (.writeMemory a b) =
      { state := { s with memory := Memory.writeByte s.memory a b }, reply := .ok, event := none } := by
  simp only [transact, hostWriteMemory, State.memWrite, if_pos h]

/-- A host write to an address outside memory changes nothing (log entry 4). -/
theorem hostWriteMemory_of_ge {s : State} {a : Nat} (b : Byte) (h : s.config.memorySize ≤ a) :
    transact s (.writeMemory a b) = { state := s, reply := .noSuchAddress, event := none } := by
  simp only [transact, hostWriteMemory, State.memWrite, if_neg (Nat.not_lt.mpr h)]

/-- Every transaction keeps the invariant. -/
theorem transact_keeps_inv {s : State} (hs : StateInv s) (x : Transaction) : StateInv (transact s x).state := by
  have ⟨hlegal, hwf, hbelow⟩ := hs
  cases x with
  | step =>
    obtain hstep | hsame := stepReport_state_cases s
    · exact stepKeepsTheInvariant s _ hs hstep
    · exact hsame.symm ▸ hs
  | reset => exact stateInv_ofConfig hlegal
  | loadProgram bytes =>
    obtain ⟨hfits, himage⟩ | hsame := loadProgram_state_cases s bytes
    · exact himage.symm ▸ stateInv_withImage hlegal hfits
    · exact hsame.symm ▸ hs
  | readState => exact hs
  | writeMemory a b =>
    rcases Nat.lt_or_ge a s.config.memorySize with ha | ha
    · rw [hostWriteMemory_of_lt b ha]
      exact ⟨hlegal, wf_writeByte a b hwf, below_writeByte a b ha hbelow⟩
    · rw [hostWriteMemory_of_ge b ha]
      exact hs
  | writeDT b => exact hs
  | writeST b => exact hs

/-- Settles O46: a constructed state is the reset state of legal parameters, and every transaction keeps the
invariant. -/
theorem transactionsKeepTheInvariant : Obligations.TransactionsKeepTheInvariant := by
  unfold Obligations.TransactionsKeepTheInvariant
  refine ⟨fun m o p s hconstruct => ?_, fun xs s hs => ?_⟩
  · obtain ⟨hlegal, rfl⟩ := construct_eq_some_iff.mp hconstruct
    exact stateInv_ofConfig hlegal
  · induction xs generalizing s with
    | nil => exact hs
    | cons x xs ih => exact ih _ (transact_keeps_inv hs x)

/-- Settles O45: the reset state has the standard parameters, which are legal. -/
theorem resetMeetsTheInvariant : Obligations.ResetMeetsTheInvariant := by
  unfold Obligations.ResetMeetsTheInvariant
  exact stateInv_ofConfig config_standard_legal

end Sys2Proof.Machine
end

section
/-! The parameters over transactions, construction, and the host's writes (R27, R30, R98, R99). -/

namespace Sys2Proof.Machine

/-- Settles O48: construction tests the parameters for legality, which is these three bounds. -/
theorem constructionAcceptsExactlyLegalParameters : Obligations.ConstructionAcceptsExactlyLegalParameters := by
  unfold Obligations.ConstructionAcceptsExactlyLegalParameters
  refine fun m o p => ⟨fun ⟨t, ht⟩ => ?_, fun hlegal => ?_⟩
  · obtain ⟨hlegal, -⟩ := construct_eq_some_iff.mp ht
    exact hlegal
  · exact ⟨_, construct_eq_some_iff.mpr ⟨hlegal, rfl⟩⟩

/-- No transaction changes the parameters (R27). -/
theorem transact_config (s : State) (x : Transaction) : (transact s x).state.config = s.config := by
  cases x with
  | step =>
    obtain hstep | hsame := stepReport_state_cases s
    · obtain ⟨-, -, -, -, hconfig⟩ := step_keeps_rest hstep
      exact hconfig
    · exact congrArg State.config hsame
  | reset => rfl
  | loadProgram bytes =>
    obtain ⟨-, himage⟩ | hsame := loadProgram_state_cases s bytes
    · rw [himage, withImage_config]
    · rw [hsame]
  | readState => rfl
  | writeMemory a b =>
    rcases Nat.lt_or_ge a s.config.memorySize with ha | ha
    · rw [hostWriteMemory_of_lt b ha]
    · rw [hostWriteMemory_of_ge b ha]
  | writeDT b => rfl
  | writeST b => rfl

theorem transactAll_config (s : State) (xs : List Transaction) : (transactAll s xs).config = s.config := by
  induction xs generalizing s with
  | nil => rfl
  | cons x xs ih => exact (ih _).trans (transact_config s x)

/-- Settles O49: `reset` gives the reset state of the parameters, which no transaction changes. -/
theorem resetReturnsToTheConstructedState : Obligations.ResetReturnsToTheConstructedState := by
  unfold Obligations.ResetReturnsToTheConstructedState
  intro m o p t xs hconstruct
  obtain ⟨-, rfl⟩ := construct_eq_some_iff.mp hconstruct
  rw [doReset_eq_ofConfig, doReset_eq_ofConfig, ofConfig_config, transactAll_config, ofConfig_config]
  exact ⟨rfl, rfl⟩

/-- Settles O52: a host write in memory is one `writeByte`, and the fetch reads the byte at `pc` as its high byte. -/
theorem hostWritesChangeOnlyTheirTarget : Obligations.HostWritesChangeOnlyTheirTarget := by
  unfold Obligations.HostWritesChangeOnlyTheirTarget
  refine ⟨fun s a b hwf ha => ?_, fun s a b => hostWriteMemory_of_ge b, fun s b => ⟨rfl, rfl⟩⟩
  have hsame : Memory.readByte (Memory.writeByte s.memory a b) a = b := by
    rw [readByte_writeByte a a b hwf, if_pos rfl]
  have hother (a' : Nat) (hne : a' ≠ a) :
      Memory.readByte (Memory.writeByte s.memory a b) a' = Memory.readByte s.memory a' := by
    rw [readByte_writeByte a a' b hwf, if_neg hne.symm]
  refine ⟨_, by rw [hostWriteMemory_of_lt b ha], hsame, hother, ?_⟩
  rintro rfl w hfetch
  obtain ⟨hrange, rfl⟩ := fetch_eq_some.mp hfetch
  have hlow := (Memory.readByte s.memory (s.pc.toNat + 1)).isLt
  refine ⟨wordOfBytes b (Memory.readByte s.memory (s.pc.toNat + 1)), fetch_eq_some.mpr ⟨hrange, ?_⟩, ?_⟩
  · exact congrArg₂ wordOfBytes hsame.symm (hother _ (by omega)).symm
  · rw [wordOfBytes_toNat, wordOfBytes_toNat]
    omega

end Sys2Proof.Machine
end

section
/-! Runs of many steps (R109, R110, 70_reset_and_hazards.md sections 2 and 5). -/

namespace Sys2Proof.Machine

/-- A run from a state that its step leaves as it is stays there. -/
theorem run_of_fixed {s : State} (h : step s = .next s) (k : Nat) : core.run k s = .next s := by
  induction k with
  | zero => rfl
  | succ k ih => exact (run_succ_of_next h).trans ih

theorem step_selfJump {s : State} (h : SelfJump s) : step s = .next s := by
  obtain ⟨w, nnn, hfetch, hdecode, htarget⟩ := h
  have hpc : targetOf nnn = s.pc := BitVec.eq_of_toNat_eq ((targetOf_toNat nnn).trans htarget)
  have hjp : exec (.jp nnn) s = .next (s.setPc (targetOf nnn)) := rfl
  rw [step_of_instr hfetch hdecode, hjp, hpc, setPc_self]

/-- Settles O53: the jump to `pc` leaves the state, and the definition of the end names it. -/
theorem selfJumpIsAFixedPoint : Obligations.SelfJumpIsAFixedPoint := by
  unfold Obligations.SelfJumpIsAFixedPoint
  exact fun s k h => ⟨run_of_fixed (step_selfJump h) k, .inr h⟩

theorem step_heldReturn {s : State} (h : HeldReturn s) : step s = .next s := by
  obtain ⟨hfetch, hsp, hpolicy⟩ := h
  have hret : exec .ret s = .next (retOnEmpty s) := execRet_empty hsp
  rw [step_of_instr hfetch (decodeWord_ret_iff.mpr rfl), hret, retOnEmpty_hold hpolicy]

/-- A held `RET` is no self-jump: the word `0x00EE` decodes to one instruction. -/
theorem not_selfJump_of_heldReturn {s : State} (h : HeldReturn s) : ¬ SelfJump s := by
  rintro ⟨w, nnn, hfetch, hdecode, -⟩
  obtain rfl := Option.some.inj (h.1.symm.trans hfetch)
  cases (decodeWord_ret_iff.mpr rfl).symm.trans hdecode

/-- Settles O54: the held return leaves the state; it completes, so the end could only be a self-jump. -/
theorem heldReturnHangsForever : Obligations.HeldReturnHangsForever := by
  unfold Obligations.HeldReturnHangsForever
  refine fun s k h => ⟨run_of_fixed (step_heldReturn h) k, ?_⟩
  rintro (⟨f, hfault⟩ | hjump)
  · cases (step_heldReturn h).symm.trans hfault
  · exact not_selfJump_of_heldReturn h hjump

/-- Over zero memory a fetch in range is `SYS`, which advances `pc` by 2. -/
theorem step_zeroMemory {s : State} (hzero : ∀ a, Memory.readByte s.memory a = 0)
    (hrange : s.pc.toNat + 1 < s.config.memorySize) : step s = .next (s.advance 2) := by
  have hword : wordOfBytes 0 0 = 0x0000 := by decide
  have hfetch : s.fetch = some 0x0000 := fetch_eq_some.mpr ⟨hrange, by rw [hzero, hzero, hword]⟩
  exact step_of_instr hfetch (decodeWord_sys rfl (by decide))

/-- `pc` after an advance by 2 that stays below the wrap (R19). -/
theorem advance_two_pc_toNat {s : State} (h : s.pc.toNat + 2 < 65536) : (s.advance 2).pc.toNat = s.pc.toNat + 2 := by
  rw [advance_pc, pcPlus_toNat, Nat.mod_eq_of_lt h]

/-- Over zero memory a run inside memory only advances `pc`. -/
theorem run_zeroMemory {s : State} {k : Nat} (hzero : ∀ a, Memory.readByte s.memory a = 0)
    (hwrap : s.pc.toNat + 2 * k < 65536) (hend : s.pc.toNat + 2 * k ≤ s.config.memorySize) :
    core.run k s = .next (s.setPc (BitVec.ofNat 16 (s.pc.toNat + 2 * k))) := by
  induction k generalizing s with
  | zero =>
    rw [Nat.mul_zero, Nat.add_zero, BitVec.ofNat_toNat, BitVec.setWidth_eq, setPc_self]
    rfl
  | succ k ih =>
    have hpc : (s.advance 2).pc.toNat = s.pc.toNat + 2 := advance_two_pc_toNat (by omega)
    have hsum : s.pc.toNat + 2 + 2 * k = s.pc.toNat + 2 * (k + 1) := by omega
    have hrest := ih (s := s.advance 2) hzero (by omega) (by rw [advance_config]; omega)
    rw [run_succ_of_next (step_zeroMemory hzero (by omega)), hrest, hpc, hsum]
    rfl

/-- The step after a run that goes on ends the run of one step more, if it faults. -/
theorem run_succ_of_run_of_fault {k : Nat} {s t : State} {f : Fault} (hrun : core.run k s = .next t)
    (hfault : step t = .fault f) : core.run (k + 1) s = .fault f := by
  induction k generalizing s with
  | zero =>
    obtain rfl := Host.Outcome.next.inj hrun
    exact run_succ_of_fault hfault
  | succ k ih =>
    cases hstep : step s with
    | next u =>
      rw [run_succ_of_next hstep] at hrun ⊢
      exact ih hrun
    | fault r => cases (run_succ_of_fault hstep).symm.trans hrun
    | refused r => exact absurd hstep (step_ne_refused s r)

/-- Settles O55: a run inside zero memory only advances `pc`, and the step at its end has no second byte to fetch. -/
theorem zeroMemoryOnlyAdvancesPcUntilTheEnd : Obligations.ZeroMemoryOnlyAdvancesPcUntilTheEnd := by
  unfold Obligations.ZeroMemoryOnlyAdvancesPcUntilTheEnd
  refine fun s k _ hzero hwrap => ⟨fun hend => run_zeroMemory hzero hwrap hend, fun hend hout => ?_⟩
  refine run_succ_of_run_of_fault (run_zeroMemory hzero hwrap hend) (step_of_fetch_none (fetch_eq_none.mpr ?_))
  rw [setPc_config, setPc_pc, BitVec.toNat_ofNat]
  omega

end Sys2Proof.Machine
end

section
/-! The assembler reads back what the disassembler prints (R61, R62). -/

namespace Sys2Proof.Machine

/-! ### Digits and operands -/

theorem hexValue_hexDigit : ∀ d : BitVec 4, hexValue (hexDigit d) = some d.toNat := by decide

theorem hexDigit_ne_comma : ∀ d : BitVec 4, hexDigit d ≠ ',' := by decide

/-- The digits of a number, most significant first, give its value. -/
theorem hexNumber_hexDigit_cons (acc : Nat) (d : BitVec 4) (cs : List Char) :
    hexNumber acc (hexDigit d :: cs) = hexNumber (acc * 16 + d.toNat) cs := by
  rw [hexNumber, hexValue_hexDigit]

theorem parseOperand_regText (r : Reg) : parseOperand (regText r) = some (.reg r) := by
  have hval : (bitsOfReg r).toNat = r.val := congrArg Fin.val (regOfBits_bitsOfReg r)
  simp [regText, parseOperand, hexValue_hexDigit, hval]

/-- `0x` and digits read as the number the digits give. -/
theorem parseOperand_num {c : Char} {cs : List Char} {n : Nat} (h : hexNumber 0 (c :: cs) = some n) :
    parseOperand ('0' :: 'x' :: c :: cs) = some (.num n) := by
  rw [parseOperand, h]

theorem parseOperand_byteText (b : Byte) : parseOperand (byteText b) = some (.num b.toNat) := by
  refine parseOperand_num ?_
  have hnibbles := congrArg BitVec.toNat (byte_nibbles b)
  rw [append_toNat] at hnibbles
  rw [hexNumber_hexDigit_cons, hexNumber_hexDigit_cons, hexNumber, Nat.zero_mul, Nat.zero_add]
  exact congrArg some hnibbles

theorem parseOperand_addrText (a : Addr) : parseOperand (addrText a) = some (.num a.toNat) := by
  refine parseOperand_num ?_
  have hnibbles := congrArg BitVec.toNat (addr_nibbles a)
  rw [append_toNat, append_toNat] at hnibbles
  rw [hexNumber_hexDigit_cons, hexNumber_hexDigit_cons, hexNumber_hexDigit_cons, hexNumber, Nat.zero_mul,
    Nat.zero_add]
  exact congrArg some hnibbles

theorem comma_not_mem_regText (r : Reg) : ',' ∉ regText r := by
  simp [regText, (hexDigit_ne_comma _).symm]

theorem comma_not_mem_addrText (a : Addr) : ',' ∉ addrText a := by
  simp [addrText, (hexDigit_ne_comma _).symm]

/-! ### Lines -/

theorem splitSpace_cons_of_ne {c : Char} (cs : List Char) (h : c ≠ ' ') :
    splitSpace (c :: cs) = (c :: (splitSpace cs).1, (splitSpace cs).2) := by
  rw [splitSpace]
  exact h

theorem splitComma_cons_of_ne {c : Char} (cs : List Char) (h : c ≠ ',') :
    splitComma (c :: cs) = (c :: (splitComma cs).1, (splitComma cs).2) := by
  rw [splitComma]
  exact fun _ hc => absurd hc h

/-- The mnemonic ends at the first space. -/
theorem splitSpace_append {m : List Char} (rest : List Char) (h : ' ' ∉ m) :
    splitSpace (m ++ ' ' :: rest) = (m, some rest) := by
  induction m with
  | nil => rfl
  | cons c m ih =>
    rw [List.cons_append, splitSpace_cons_of_ne _ (List.ne_of_not_mem_cons h).symm, ih (List.not_mem_of_not_mem_cons h)]

/-- An operand without a comma is the last one. -/
theorem splitComma_of_not_mem {a : List Char} (h : ',' ∉ a) : splitComma a = (a, none) := by
  induction a with
  | nil => rfl
  | cons c a ih =>
    rw [splitComma_cons_of_ne _ (List.ne_of_not_mem_cons h).symm, ih (List.not_mem_of_not_mem_cons h)]

/-- The first operand ends at the first comma. -/
theorem splitComma_append {a : List Char} (b : List Char) (h : ',' ∉ a) :
    splitComma (a ++ ',' :: ' ' :: b) = (a, some b) := by
  induction a with
  | nil => rfl
  | cons c a ih =>
    rw [List.cons_append, splitComma_cons_of_ne _ (List.ne_of_not_mem_cons h).symm,
      ih (List.not_mem_of_not_mem_cons h)]

theorem splitLine_textOne {m a : List Char} (hm : ' ' ∉ m) (ha : ',' ∉ a) : splitLine (textOne m a) = (m, [a]) := by
  simp only [splitLine, textOne, splitSpace_append a hm, splitComma_of_not_mem ha]

theorem splitLine_textTwo {m a : List Char} (b : List Char) (hm : ' ' ∉ m) (ha : ',' ∉ a) :
    splitLine (textTwo m a b) = (m, [a, b]) := by
  simp only [splitLine, textTwo, splitSpace_append _ hm, splitComma_append b ha]

/-! ### Instructions -/

/-- A line whose mnemonic and operands name a well-formed instruction assembles to it. -/
theorem assemble_of_splitLine {cs m : List Char} {os : List (List Char)} {i : Instr} (hline : splitLine cs = (m, os))
    (hinstr : asmInstr m (os.map parseOperand) = some i) (hwf : i.wf = true) : assemble cs = some i := by
  simp only [assemble, hline, hinstr, hwf, if_true]

/-- What assembles is well-formed (R62). -/
theorem wf_of_assemble {cs : List Char} {i : Instr} (h : assemble cs = some i) : i.wf = true := by
  unfold assemble at h
  split at h
  next j _ =>
    obtain ⟨hwf, hij⟩ := Option.ite_none_right_eq_some.mp h
    rwa [Option.some.inj hij] at hwf
  next => cases h

section Lines
variable {m : List Char} {i : Instr} (hm : ' ' ∉ m) (hwf : i.wf = true)
include hm hwf

/-- A mnemonic with one address, printed, assembles to the instruction the two name. -/
theorem assemble_addrText {nnn : Addr} (h : asmAddr m nnn.toNat = some i) :
    assemble (textOne m (addrText nnn)) = some i := by
  refine assemble_of_splitLine (splitLine_textOne hm (comma_not_mem_addrText nnn)) ?_ hwf
  rw [List.map_singleton, parseOperand_addrText]
  exact h

/-- A mnemonic with one register, printed, assembles to the instruction the two name. -/
theorem assemble_regText {x : Reg} (h : asmInstr m [some (.reg x)] = some i) :
    assemble (textOne m (regText x)) = some i := by
  refine assemble_of_splitLine (splitLine_textOne hm (comma_not_mem_regText x)) ?_ hwf
  rwa [List.map_singleton, parseOperand_regText]

/-- A mnemonic with a register and a byte, printed, assembles to the instruction the three name. -/
theorem assemble_regText_byteText {x : Reg} {kk : Byte} (h : asmByte m x kk.toNat = some i) :
    assemble (textTwo m (regText x) (byteText kk)) = some i := by
  refine assemble_of_splitLine (splitLine_textTwo _ hm (comma_not_mem_regText x)) ?_ hwf
  rw [List.map_cons, List.map_singleton, parseOperand_regText, parseOperand_byteText]
  exact h

/-- A mnemonic with two registers, printed, assembles to the instruction the three name. -/
theorem assemble_regText_regText {x y : Reg} (h : asmReg m x y = some i) :
    assemble (textTwo m (regText x) (regText y)) = some i := by
  refine assemble_of_splitLine (splitLine_textTwo _ hm (comma_not_mem_regText x)) ?_ hwf
  rw [List.map_cons, List.map_singleton, parseOperand_regText, parseOperand_regText]
  exact h

end Lines

/-- The assembler reads back the text of every well-formed instruction. -/
theorem assemble_disassemble (i : Instr) (hwf : i.wf = true) : assemble (disassemble i) = some i := by
  cases i with
  | ret => decide
  | sys nnn => exact assemble_addrText (by decide) hwf (by simp [asmAddr, nnn.isLt])
  | jp nnn => exact assemble_addrText (by decide) hwf (by simp [asmAddr, nnn.isLt])
  | call nnn => exact assemble_addrText (by decide) hwf (by simp [asmAddr, nnn.isLt])
  | seByte x kk => exact assemble_regText_byteText (by decide) hwf (by simp [asmByte, kk.isLt])
  | sneByte x kk => exact assemble_regText_byteText (by decide) hwf (by simp [asmByte, kk.isLt])
  | seReg x y => exact assemble_regText_regText (by decide) hwf rfl
  | ldByte x kk => exact assemble_regText_byteText (by decide) hwf (by simp [asmByte, kk.isLt])
  | addByte x kk => exact assemble_regText_byteText (by decide) hwf (by simp [asmByte, kk.isLt])
  | ldReg x y => exact assemble_regText_regText (by decide) hwf rfl
  | orReg x y => exact assemble_regText_regText (by decide) hwf rfl
  | andReg x y => exact assemble_regText_regText (by decide) hwf rfl
  | xorReg x y => exact assemble_regText_regText (by decide) hwf rfl
  | addReg x y => exact assemble_regText_regText (by decide) hwf rfl
  | subReg x y => exact assemble_regText_regText (by decide) hwf rfl
  | shr x => exact assemble_regText (by decide) hwf rfl
  | subnReg x y => exact assemble_regText_regText (by decide) hwf rfl

/-- Settles O8: the parser inverts the printer line by line, and the assembler tests what it gives. -/
theorem assembleOfDisassembleIsIdentity : Obligations.AssembleOfDisassembleIsIdentity := by
  unfold Obligations.AssembleOfDisassembleIsIdentity
  exact ⟨assemble_disassemble, fun cs i => wf_of_assemble⟩

end Sys2Proof.Machine
end
